-- ==== Sys2Proof/Word.lean ====
section
/-! DEFINITION. The machine's words (spec/00_scope.md R10): bytes, 16-bit CPU words and 12-bit decode keys. -/

namespace Sys2Proof

/-- A register, a port's data value or a memory byte (R10: unsigned 8-bit). -/
abbrev Byte := BitVec 8

/-- PC, SP, a memory address, or a port address as the CPU engine presents it (R10, R100). -/
abbrev Word := BitVec 16

/-- A decode key (spec/30_encoding.md R70). -/
abbrev Key := BitVec 12

/-- `v[7:0]`. -/
def Word.low (w : Word) : Byte := w.extractLsb' 0 8

/-- `v[15:8]`. -/
def Word.high (w : Word) : Byte := w.extractLsb' 8 8

/-- `{hi, lo}` (R10: the first component is the high part). -/
def Word.ofBytes (hi lo : Byte) : Word := hi ++ lo

end Sys2Proof
end

