-- ==== Sys2Proof/Machine/Cpu.lean ====
section
/-! DEFINITION. The state of the external CPU engine that the block reads, writes or reports (spec/10_state.md R37, spec/00_scope.md R4, spec/45_engine.md R212), and the CPU memory (spec/20_memory.md R58). -/

namespace Sys2Proof.Machine

/-- `cpu.IM`, in {0, 1, 2} (R37). -/
inductive IntMode where
  | im0
  | im1
  | im2
deriving DecidableEq, Repr, Inhabited

/-- The engine's registers beside PC and SP: the Z80's general and alternate registers, IX, IY, I and R.
PRESUMED layout, the Z80 family's (log 5): the spec says only "the general registers" and "registers, flags". -/
structure GenRegs where
  a : Byte
  f : Byte
  b : Byte
  c : Byte
  d : Byte
  e : Byte
  h : Byte
  l : Byte
  altA : Byte
  altF : Byte
  altB : Byte
  altC : Byte
  altD : Byte
  altE : Byte
  altH : Byte
  altL : Byte
  ix : Word
  iy : Word
  i : Byte
  r : Byte
deriving DecidableEq, Repr, Inhabited

/-- What the CPU engine exposes (R4, R37, R178). -/
structure Cpu where
  pc : Word
  sp : Word
  im : IntMode
  iff1 : Bool
  iff2 : Bool
  halted : Bool
  /-- `cpu.last_instruction_was_EI` (R178). -/
  lastWasEi : Bool
  regs : GenRegs
deriving DecidableEq, Repr, Inhabited

/-- CPU memory: (address, byte) pairs, addresses strictly rising, no entry equal to what an unlisted address reads as. -/
abbrev Memory := List Host.Cell

end Sys2Proof.Machine
end

