-- ==== Sys2Proof/Config.lean ====
section
/-! DEFINITION. The parameters of the session (spec/00_scope.md R9) and the free values: the external CPU engine (`P_CPU_STEP`, OPEN) and the flags that the vectors' engine leaves open. -/

namespace Sys2Proof

/-- The two chip personalities (R2, R20). -/
inductive Variant where
  | acia
  | usart
deriving DecidableEq, Repr, Inhabited

/-- The USART's two-phase write cursor (spec/10_state.md R30). -/
inductive Phase where
  | expectMode
  | expectCommand
deriving DecidableEq, Repr, Inhabited

/-- `P_USART_DATA_PORT`: which claimed port carries data; the other is command/status (R9, D2). -/
inductive UsartDataPort where
  | port00
  | port01
deriving DecidableEq, Repr, Inhabited

/-- `P_USART_TX_IE` (R9, D7). -/
inductive UsartTxIe where
  | never
  | txEn
deriving DecidableEq, Repr, Inhabited

/-- `P_HALT_PC`: the PC a halted engine holds, the address after the HALT or the HALT's own (R9, D20). -/
inductive HaltPc where
  | afterHalt
  | atHalt
deriving DecidableEq, Repr, Inhabited

/-- `P_TEXT_ENCODING` (R9, D27): one value exists. -/
inductive TextEncoding where
  | utf8
deriving DecidableEq, Repr, Inhabited

/-- `P_CPU_STEP` (R9, D38), an OPEN parameter. `external` is any engine at all: a free value.
`vectorZ80` is the Z80 the spec's test vectors use; on an opcode outside their set it is the free value too (logs 2, 4). -/
inductive EngineKind where
  | vectorZ80
  | external
deriving DecidableEq, Repr, Inhabited

/-- The parameters of R9, but for `P_MEM_INIT`, which is an argument of session creation. -/
structure Params where
  initialVariant : Variant
  usartDataPort : UsartDataPort
  usartTxIe : UsartTxIe
  honourEiShadow : Bool
  haltPc : HaltPc
  im2Vector : Byte
  resetClearsHostBuffers : Bool
  textEncoding : TextEncoding
  engine : EngineKind
deriving DecidableEq, Repr, Inhabited

/-- The defaults of R9. `im2Vector` and `engine` are OPEN there: DESIGN CHOICE, the test vectors' values (logs 2, 8). -/
def Params.default : Params where
  initialVariant := .acia
  usartDataPort := .port00
  usartTxIe := .never
  honourEiShadow := false
  haltPc := .afterHalt
  im2Vector := 0xFF
  resetClearsHostBuffers := false
  textEncoding := .utf8
  engine := .vectorZ80

namespace Machine

/-- What an engine step can see: its own state, the memory, the mode-2 request line and its vector byte (R175, R177),
and a counter of the engine's calls, through which a free engine may depend on its own past. -/
structure EngineView where
  cpu : Cpu
  mem : Memory
  intReq : Bool
  vector : Byte
  haltPc : HaltPc
  tick : Nat
deriving DecidableEq, Repr, Inhabited

/-- One call of `step_one_instruction()` (R195), as the block sees it: any number of port accesses, each answered by
the dispatcher before the engine goes on, and at the end the engine's new state, the memory bytes it wrote, in
order, and the elapsed T-states. -/
inductive EngineRun where
  | done (cpu : Cpu) (writes : List (Word × Byte)) (tStates : Nat)
  | portRead (addr : Word) (cont : Byte → EngineRun)
  | portWrite (addr : Word) (data : Byte) (cont : EngineRun)
deriving Inhabited

end Machine

open Machine

/-- FREE VALUE: the external engine's step (`P_CPU_STEP`, OPEN; R195; log 3). -/
opaque Config.externalStep : EngineView → EngineRun

/-- FREE VALUE: the external engine's reset (R42, R207: "the engine's reset"; log 24), applied to the counter and its state. -/
opaque Config.externalReset : Nat → Cpu → Cpu

/-- FREE VALUE: the external engine's initial state (R42; log 24). -/
opaque Config.externalInit : Cpu

/-- FREE VALUE: the flag bits that the block-I/O instructions of the vectors' engine leave open (log 27). -/
opaque Config.unknownFlags : EngineView → Byte

end Sys2Proof
end

