-- ==== Sys2Proof/Syntax.lean ====
section
/-! DEFINITION. The operations of the block: one constructor per row of spec/opcode_table.json, with the operands that the row takes beside its key (spec/30_encoding.md R70, R72, R80). -/

namespace Sys2Proof

/-- The 28 operations. -/
inductive Instr where
  /-- ACIA.RD_STATUS (R110) -/
  | aciaRdStatus
  /-- ACIA.RD_DATA (R111) -/
  | aciaRdData
  /-- ACIA.WR_CONTROL (R112), data byte D -/
  | aciaWrControl (d : Byte)
  /-- ACIA.WR_DATA (R113), data byte D -/
  | aciaWrData (d : Byte)
  /-- USART.RD_DATA (R130) -/
  | usartRdData
  /-- USART.RD_STATUS (R131) -/
  | usartRdStatus
  /-- USART.WR_DATA (R132), data byte D -/
  | usartWrData (d : Byte)
  /-- USART.WR_MODE (R133), data byte D -/
  | usartWrMode (d : Byte)
  /-- USART.WR_COMMAND (R134), data byte D -/
  | usartWrCommand (d : Byte)
  /-- BUS.IDLE_READ (R101): the active variant and the port address, which it does not claim -/
  | idleRead (v : Variant) (a : Byte)
  /-- BUS.IDLE_WRITE (R102): the active variant, the port address, which it does not claim, and the data byte D -/
  | idleWrite (v : Variant) (a : Byte) (d : Byte)
  /-- CHIP.PUSH_RX (R150), byte b -/
  | chipPushRx (b : Byte)
  /-- CHIP.TAKE_PENDING_TX (R151) -/
  | chipTakePendingTx
  /-- CHIP.HAS_PENDING_RX (R152) -/
  | chipHasPendingRx
  /-- CHIP.INTERRUPT_REQUESTED (R153) -/
  | chipInterruptRequested
  /-- CHIP.CONSTRUCT (R154), variant identifier (R81) -/
  | chipConstruct (id : Nat)
  /-- BRIDGE.EVALUATE (R170) -/
  | bridgeEvaluate
  /-- ENG.PUMP (R190) -/
  | engPump
  /-- ENG.DRAIN_TX (R191) -/
  | engDrainTx
  /-- ENG.CONFIGURE (R205), variant identifier (R81) -/
  | engConfigure (id : Nat)
  /-- ENG.LOAD_PROGRAM (R206), bytes and origin -/
  | engLoadProgram (bytes : List Byte) (origin : Nat)
  /-- ENG.RESET (R207) -/
  | engReset
  /-- ENG.RUN (R198), max_cycles -/
  | engRun (maxCycles : Nat)
  /-- ENG.STEP_ONE (R199) -/
  | engStepOne
  /-- ENG.PUSH_INPUT_BYTE (R208), byte b -/
  | engPushInputByte (b : Byte)
  /-- ENG.PUSH_INPUT_STRING (R209), text s -/
  | engPushInputString (text : List Char)
  /-- ENG.DRAIN_OUTPUT (R210) -/
  | engDrainOutput
  /-- ENG.QUERY_STATE (R212) -/
  | engQueryState
deriving DecidableEq, Repr

end Sys2Proof
end

