-- ==== Sys2Proof/WellFormed.lean ====
section
/-! DEFINITION. Which terms of Instr are operations of the block: an idle access is at a port its variant does not claim (spec/30_encoding.md R73, spec/40_port_dispatch.md R101, R102), and a chip is constructed for one of the two variants (spec/43_chip_interface.md R154). -/

namespace Sys2Proof

/-- The ports a variant claims (spec/00_scope.md R8): ACIA 0x80 and 0x81, USART 0x00 and 0x01. -/
def Variant.claims : Variant → Byte → Bool
  | .acia, a => a == 0x80 || a == 0x81
  | .usart, a => a == 0x00 || a == 0x01

/-- The check. An ill-formed idle access is what a key with PH = 1 and V = 0 at a claimed ACIA port decodes to, which
R73 says "is not a behaviour of the block". -/
def Instr.wellFormed : Instr → Bool
  | .idleRead v a => !v.claims a
  | .idleWrite v a _ => !v.claims a
  | .chipConstruct id => id == 0 || id == 1
  | .aciaRdStatus | .aciaRdData | .aciaWrControl _ | .aciaWrData _ => true
  | .usartRdData | .usartRdStatus | .usartWrData _ | .usartWrMode _ | .usartWrCommand _ => true
  | .chipPushRx _ | .chipTakePendingTx | .chipHasPendingRx | .chipInterruptRequested => true
  | .bridgeEvaluate | .engPump | .engDrainTx | .engConfigure _ | .engLoadProgram _ _ | .engReset => true
  | .engRun _ | .engStepOne | .engPushInputByte _ | .engPushInputString _ | .engDrainOutput | .engQueryState => true

/-- The well-formed instructions. -/
abbrev Instr.WellFormed (i : Instr) : Prop := i.wellFormed = true

end Sys2Proof
end

