-- ==== Sys2Proof/Decode.lean ====
section
/-! DEFINITION. The decode key and its table (spec/30_encoding.md R70 to R73, R80, R81, R85; spec/opcode_table.json), the decoder, and the encoder written from the same table. -/

namespace Sys2Proof

/-- The operands that lie beside the key (R70: "the data byte of a write and the operands of a host call are carried
beside the key, not in it"). Each row reads its own; the others are ignored (log 13). -/
structure Operands where
  /-- D, or the byte b of PUSH_RX and PUSH_INPUT_BYTE -/
  data : Byte
  /-- a variant identifier (R81) -/
  variantId : Nat
  /-- the bytes of LOAD_PROGRAM -/
  bytes : List Byte
  /-- the origin of LOAD_PROGRAM -/
  origin : Nat
  /-- the budget of RUN -/
  maxCycles : Nat
  /-- the text of PUSH_INPUT_STRING -/
  text : List Char
deriving DecidableEq, Repr

/-- No operands: every one of them zero or empty. -/
def Operands.zero : Operands where
  data := 0
  variantId := 0
  bytes := []
  origin := 0
  maxCycles := 0
  text := []

/-- Why a key selects no row (R85). -/
inductive DecodeReject where
  /-- a format-H key with OP 0x11 to 0x1F or with bits 10:5 not all 0 -/
  | reservedHostOp
deriving DecidableEq, Repr

/-- One row of the table: a key K selects it when `K & mask = match`. -/
structure Row where
  mnemonic : String
  matchBits : Key
  mask : Key
  build : Key → Operands → Instr

/-- The low address bit of the USART's data port, and of its command/status port (R72, `P_USART_DATA_PORT`). -/
def UsartDataPort.dataBit : UsartDataPort → Key
  | .port00 => 0
  | .port01 => 1

def UsartDataPort.controlBit : UsartDataPort → Key
  | .port00 => 1
  | .port01 => 0

/-- The variant that bit V of a key names (R70). -/
def Key.variant (k : Key) : Variant := if k.getLsbD 9 then .usart else .acia

/-- The port address field A of a key (R70). -/
def Key.port (k : Key) : Byte := k.extractLsb' 0 8

/-- The claimed-port rows of R72, in table order. -/
def portRows (dp : UsartDataPort) : List Row :=
  [ ⟨"ACIA.RD_STATUS", 0x080, 0xFFF, fun _ _ => .aciaRdStatus⟩,
    ⟨"ACIA.RD_DATA", 0x081, 0xFFF, fun _ _ => .aciaRdData⟩,
    ⟨"ACIA.WR_CONTROL", 0x180, 0xFFF, fun _ o => .aciaWrControl o.data⟩,
    ⟨"ACIA.WR_DATA", 0x181, 0xFFF, fun _ o => .aciaWrData o.data⟩,
    ⟨"USART.RD_DATA", 0x200 ||| dp.dataBit, 0xBFF, fun _ _ => .usartRdData⟩,
    ⟨"USART.RD_STATUS", 0x200 ||| dp.controlBit, 0xBFF, fun _ _ => .usartRdStatus⟩,
    ⟨"USART.WR_DATA", 0x300 ||| dp.dataBit, 0xBFF, fun _ o => .usartWrData o.data⟩,
    ⟨"USART.WR_MODE", 0x300 ||| dp.controlBit, 0xFFF, fun _ o => .usartWrMode o.data⟩,
    ⟨"USART.WR_COMMAND", 0x700 ||| dp.controlBit, 0xFFF, fun _ o => .usartWrCommand o.data⟩ ]

/-- The idle rows of R72: last of the port rows, they take every port cycle that no earlier row took (R71). -/
def idleRows : List Row :=
  [ ⟨"BUS.IDLE_READ", 0x000, 0x900, fun k _ => .idleRead k.variant k.port⟩,
    ⟨"BUS.IDLE_WRITE", 0x100, 0x900, fun k o => .idleWrite k.variant k.port o.data⟩ ]

/-- The chip and bridge rows of R80. -/
def chipRows : List Row :=
  [ ⟨"CHIP.PUSH_RX", 0x800, 0xFFF, fun _ o => .chipPushRx o.data⟩,
    ⟨"CHIP.TAKE_PENDING_TX", 0x801, 0xFFF, fun _ _ => .chipTakePendingTx⟩,
    ⟨"CHIP.HAS_PENDING_RX", 0x802, 0xFFF, fun _ _ => .chipHasPendingRx⟩,
    ⟨"CHIP.INTERRUPT_REQUESTED", 0x803, 0xFFF, fun _ _ => .chipInterruptRequested⟩,
    ⟨"CHIP.CONSTRUCT", 0x804, 0xFFF, fun _ o => .chipConstruct o.variantId⟩,
    ⟨"BRIDGE.EVALUATE", 0x805, 0xFFF, fun _ _ => .bridgeEvaluate⟩ ]

/-- The engine rows of R80. -/
def engineRows : List Row :=
  [ ⟨"ENG.PUMP", 0x806, 0xFFF, fun _ _ => .engPump⟩,
    ⟨"ENG.DRAIN_TX", 0x807, 0xFFF, fun _ _ => .engDrainTx⟩,
    ⟨"ENG.CONFIGURE", 0x808, 0xFFF, fun _ o => .engConfigure o.variantId⟩,
    ⟨"ENG.LOAD_PROGRAM", 0x809, 0xFFF, fun _ o => .engLoadProgram o.bytes o.origin⟩,
    ⟨"ENG.RESET", 0x80A, 0xFFF, fun _ _ => .engReset⟩,
    ⟨"ENG.RUN", 0x80B, 0xFFF, fun _ o => .engRun o.maxCycles⟩,
    ⟨"ENG.STEP_ONE", 0x80C, 0xFFF, fun _ _ => .engStepOne⟩,
    ⟨"ENG.PUSH_INPUT_BYTE", 0x80D, 0xFFF, fun _ o => .engPushInputByte o.data⟩,
    ⟨"ENG.PUSH_INPUT_STRING", 0x80E, 0xFFF, fun _ o => .engPushInputString o.text⟩,
    ⟨"ENG.DRAIN_OUTPUT", 0x80F, 0xFFF, fun _ _ => .engDrainOutput⟩,
    ⟨"ENG.QUERY_STATE", 0x810, 0xFFF, fun _ _ => .engQueryState⟩ ]

/-- The whole table, in the order of spec/opcode_table.json. -/
def rows (dp : UsartDataPort) : List Row := portRows dp ++ (idleRows ++ (chipRows ++ engineRows))

/-- Whether a key selects a row (R71). -/
def Row.selects (r : Row) (k : Key) : Bool := k &&& r.mask == r.matchBits

/-- Decoding (R71): the first row in table order that the key selects, or the rejection of R85. Total. -/
def decode (dp : UsartDataPort) (k : Key) (o : Operands) : Except DecodeReject Instr :=
  match (rows dp).find? (fun r => r.selects k) with
  | some r => .ok (r.build k o)
  | none => .error .reservedHostOp

/-- The instruction the decoder reads from a table word: bits 11:0 are the key, the operands beside it are zero, and a
word with a higher bit set is no key. The table's numbering is that of `P_USART_DATA_PORT` = 0x00 (R72). -/
def decodeTableWord (nbits w : Nat) : Option Instr :=
  if w % 2 ^ nbits < 4096 then
    match decode .port00 (BitVec.ofNat 12 (w % 2 ^ nbits)) Operands.zero with
    | .ok i => some i
    | .error _ => none
  else none

/-- Bit V of a key. -/
def Variant.keyBit : Variant → Key
  | .acia => 0x000
  | .usart => 0x200

/-- The key of an instruction: bits the row does not compare are 0 (R72, R80). -/
def encodeKey (dp : UsartDataPort) : Instr → Key
  | .aciaRdStatus => 0x080
  | .aciaRdData => 0x081
  | .aciaWrControl _ => 0x180
  | .aciaWrData _ => 0x181
  | .usartRdData => 0x200 ||| dp.dataBit
  | .usartRdStatus => 0x200 ||| dp.controlBit
  | .usartWrData _ => 0x300 ||| dp.dataBit
  | .usartWrMode _ => 0x300 ||| dp.controlBit
  | .usartWrCommand _ => 0x700 ||| dp.controlBit
  | .idleRead v a => v.keyBit ||| a.setWidth 12
  | .idleWrite v a _ => v.keyBit ||| 0x100 ||| a.setWidth 12
  | .chipPushRx _ => 0x800
  | .chipTakePendingTx => 0x801
  | .chipHasPendingRx => 0x802
  | .chipInterruptRequested => 0x803
  | .chipConstruct _ => 0x804
  | .bridgeEvaluate => 0x805
  | .engPump => 0x806
  | .engDrainTx => 0x807
  | .engConfigure _ => 0x808
  | .engLoadProgram _ _ => 0x809
  | .engReset => 0x80A
  | .engRun _ => 0x80B
  | .engStepOne => 0x80C
  | .engPushInputByte _ => 0x80D
  | .engPushInputString _ => 0x80E
  | .engDrainOutput => 0x80F
  | .engQueryState => 0x810

/-- The operands of an instruction, beside its key; the ones it does not have are zero. -/
def encodeOperands : Instr → Operands
  | .aciaWrControl d | .aciaWrData d => { Operands.zero with data := d }
  | .usartWrData d | .usartWrMode d | .usartWrCommand d => { Operands.zero with data := d }
  | .idleWrite _ _ d => { Operands.zero with data := d }
  | .chipPushRx b | .engPushInputByte b => { Operands.zero with data := b }
  | .chipConstruct id | .engConfigure id => { Operands.zero with variantId := id }
  | .engLoadProgram bytes origin => { Operands.zero with bytes := bytes, origin := origin }
  | .engRun maxCycles => { Operands.zero with maxCycles := maxCycles }
  | .engPushInputString text => { Operands.zero with text := text }
  | .aciaRdStatus | .aciaRdData | .usartRdData | .usartRdStatus | .idleRead _ _ => Operands.zero
  | .chipTakePendingTx | .chipHasPendingRx | .chipInterruptRequested | .bridgeEvaluate => Operands.zero
  | .engPump | .engDrainTx | .engReset | .engStepOne | .engDrainOutput | .engQueryState => Operands.zero

/-- The encoder: a key and the operands beside it. -/
def encode (dp : UsartDataPort) (i : Instr) : Key × Operands := (encodeKey dp i, encodeOperands i)

end Sys2Proof
end

