-- ==== Sys2Proof/Machine/State.lean ====
section
/-! DEFINITION. The state of one session (spec/10_state.md R20 to R38), the requests that drive it, their results, and the state after reset (R41, R42). -/

namespace Sys2Proof.Machine

/-- Why the machine stops with a fault: never. The block "raises no synchronous CPU exception and causes no CPU trap"
(spec/60_exceptions.md R230), and every condition of R232 is a result or a mark in the state. -/
inductive Fault
deriving DecidableEq, Repr

/-- Why an instruction has no meaning. -/
inductive Refusal where
  /-- An instruction of the table whose meaning is not written yet. Raised by exec's arms only; none raises it now. Safe. -/
  | notModelled (mnemonic : String)
deriving DecidableEq, Repr

/-- The serial chip (R20). One record for both variants: a field a variant lacks keeps its construction value (R35). -/
structure Chip where
  variant : Variant
  rxData : Byte
  rxFull : Bool
  txData : Byte
  txFull : Bool
  rxIe : Bool
  txIe : Bool
  control : Byte
  mode : Byte
  command : Byte
  phase : Phase
  overrunCount : Nat
deriving DecidableEq, Repr, Inhabited

/-- The refusals of spec/60_exceptions.md R232. Each sets `refused`, and the session goes on (log 14). -/
inductive RefusalCode where
  /-- BRIDGE.EVALUATE or the halt test of ENG.RUN: IM 0, IFF1 and the request all hold (R176, R198). Safe. -/
  | im0Unmodelled
  /-- a scheduling step whose CpuStep returned 0 T-states (R195). Safe. -/
  | zeroCycleStep
  /-- a host call made while another call on the session had not ended (R61). Safe. -/
  | concurrentCall
  /-- a host op code that no row has (R85). Safe. -/
  | reservedHostOp
deriving DecidableEq, Repr

/-- The snapshot of ENG.QUERY_STATE (R212). -/
structure Snapshot where
  pc : Word
  sp : Word
  registers : GenRegs
  flags : Byte
  im : IntMode
  halted : Bool
  totalCycles : Nat
  iff1 : Bool
  iff2 : Bool
  chip : Chip
  hostFifoLen : Nat
  refused : Bool
deriving DecidableEq, Repr

/-- What an operation returns. -/
inductive Value where
  | unit
  | byte (b : Byte)
  | flag (b : Bool)
  | optByte (b : Option Byte)
  | natural (n : Nat)
  /-- BRIDGE.EVALUATE's (cycles, skip) -/
  | evaluation (cycles : Nat) (skip : Bool)
  | bytes (l : List Byte)
  | snapshot (s : Snapshot)
deriving DecidableEq, Repr

/-- The two result conditions of the host interface (R230, R232). -/
inductive Condition where
  | configurationError (id : Nat)
  | loadError (copied : Nat)
deriving DecidableEq, Repr

/-- The discriminated result of an operation (R201); `none` before the first one. The model's own field (log 12). -/
inductive Result where
  | none
  | ok (v : Value)
  | okWithWarning (v : Value) (c : Condition)
  | error (c : Condition)
  | refused (c : RefusalCode)
deriving DecidableEq, Repr

/-- One request to the session: a port cycle, with the address as the CPU engine presents it (R100), or a host call,
with bits 10:0 of its key and its operands (R70, R80). `overlapping` says that another call on the session had not
ended when this one was made (R61). -/
inductive Request where
  | portRead (addr : Word)
  | portWrite (addr : Word) (data : Byte)
  | host (sel : BitVec 11) (operands : Operands) (overlapping : Bool)
deriving DecidableEq, Repr

/-- The session (R38) and the model's own fields. -/
structure State where
  /-- the parameters of R9; no step writes them (log 1) -/
  params : Params
  chip : Chip
  cpu : Cpu
  mem : Memory
  totalCycles : Nat
  hostFifo : List Byte
  outBuf : List Byte
  irqLine : Bool
  refused : Bool
  /-- the model's own: the names of the refusals raised, oldest first (log 14) -/
  refusals : List RefusalCode
  /-- the model's own: the result of the last request (log 12) -/
  result : Result
  /-- the model's own: the requests not yet carried out, next first (log 10) -/
  pending : List Request
  /-- the model's own: how often the CPU engine has been called, the counter of the free values (log 3) -/
  engineTick : Nat
deriving DecidableEq, Repr

/-- The general registers of the Z80 family after reset: A, F PRESUMED 0xFF, I and R PRESUMED 0x00 (log 5); the rest
DESIGN CHOICE 0 (log 6). -/
def GenRegs.reset : GenRegs where
  a := 0xFF
  f := 0xFF
  b := 0
  c := 0
  d := 0
  e := 0
  h := 0
  l := 0
  altA := 0
  altF := 0
  altB := 0
  altC := 0
  altD := 0
  altE := 0
  altH := 0
  altL := 0
  ix := 0
  iy := 0
  i := 0
  r := 0

/-- The Z80's reset state: PC 0x0000, IM 0, IFF1 = IFF2 = false as R42 gives the convention; the rest log 5. -/
def Cpu.reset : Cpu where
  pc := 0x0000
  sp := 0xFFFF
  im := .im0
  iff1 := false
  iff2 := false
  halted := false
  lastWasEi := false
  regs := GenRegs.reset

/-- The chip construction values of R41. -/
def Chip.fresh (v : Variant) : Chip where
  variant := v
  rxData := 0x00
  rxFull := false
  txData := 0x00
  txFull := false
  rxIe := false
  txIe := false
  control := 0x00
  mode := 0x00
  command := 0x00
  phase := .expectMode
  overrunCount := 0

/-- The engine's initial state: the Z80's, or any (R42, `P_CPU_STEP`). -/
def initialCpu : EngineKind → Cpu
  | .vectorZ80 => Cpu.reset
  | .external => Config.externalInit

/-- Session creation (R41, R42, R260) with parameters and an initial memory (`P_MEM_INIT`). -/
def State.create (p : Params) (mem : Memory) : State where
  params := p
  chip := Chip.fresh p.initialVariant
  cpu := initialCpu p.engine
  mem := mem
  totalCycles := 0
  hostFifo := []
  outBuf := []
  irqLine := false
  refused := false
  refusals := []
  result := .none
  pending := []
  engineTick := 0

/-- The machine right after reset: a session created with the default parameters, nothing listed in memory. -/
def State.reset : State := State.create Params.default []

end Sys2Proof.Machine
end

