-- ==== Sys2Proof/Machine/Flags.lean ====
section
/-! DEFINITION. Every derived flag: the interrupt request and the status bytes of the chip (spec/10_state.md R26, R31, R33), the block's output signals (R40), and the Z80 flag bits of the vectors' engine (log 4). -/

namespace Sys2Proof.Machine

/-- Receive-ready (R21). -/
def Chip.rxReady (c : Chip) : Bool := c.rxFull

/-- Transmit-ready; on the ACIA, transmit-data-empty (R22). -/
def Chip.txReady (c : Chip) : Bool := !c.txFull

/-- `interrupt_requested()` (R33): some ready condition holds with its enable flag set. -/
def Chip.interruptRequested (c : Chip) : Bool := (c.rxReady && c.rxIe) || (c.txReady && c.txIe)

/-- The ACIA status byte (R26): IRQ, five zeros, TDRE, RDRF. -/
def Chip.aciaStatus (c : Chip) : Byte :=
  BitVec.ofBool c.interruptRequested ++ 0#5 ++ BitVec.ofBool c.txReady ++ BitVec.ofBool c.rxReady

/-- The USART status byte (R31): six zeros, RxRDY, TxRDY. -/
def Chip.usartStatus (c : Chip) : Byte :=
  0#6 ++ BitVec.ofBool c.rxReady ++ BitVec.ofBool c.txReady

/-- The chip's outputs in the signal view of R40; `io_rdata` is the result of a port read. -/
structure Signals where
  rxPending : Bool
  txByte : Byte
  txValid : Bool
  irq : Bool
deriving DecidableEq, Repr

/-- The output signals, continuous functions of the chip state (R40). -/
def Chip.signals (c : Chip) : Signals where
  rxPending := c.rxFull
  txByte := c.txData
  txValid := c.txFull
  irq := c.interruptRequested

/-- Even parity of a byte. -/
def evenParity (b : Byte) : Bool :=
  !((b.getLsbD 0).xor ((b.getLsbD 1).xor ((b.getLsbD 2).xor ((b.getLsbD 3).xor
    ((b.getLsbD 4).xor ((b.getLsbD 5).xor ((b.getLsbD 6).xor (b.getLsbD 7))))))))

/-- The Z80 flag byte S Z 5 H 3 P/V N C, bits 5 and 3 copied from `x`. PRESUMED, the family's layout (log 4). -/
def z80Flags (s z h pv n c : Bool) (x : Byte) : Byte :=
  BitVec.ofBool s ++ BitVec.ofBool z ++ BitVec.ofBool (x.getLsbD 5) ++ BitVec.ofBool h
    ++ BitVec.ofBool (x.getLsbD 3) ++ BitVec.ofBool pv ++ BitVec.ofBool n ++ BitVec.ofBool c

/-- The carry flag of F. -/
def carryFlag (f : Byte) : Bool := f.getLsbD 0

/-- The zero flag of F. -/
def zeroFlag (f : Byte) : Bool := f.getLsbD 6

/-- Flags of AND n with result `r` (log 4). -/
def flagsAnd (r : Byte) : Byte := z80Flags (r.getLsbD 7) (r == 0) true (evenParity r) false false r

/-- Flags of IN r,(C) with the byte read `d`; C is kept (log 4). -/
def flagsIn (f d : Byte) : Byte := z80Flags (d.getLsbD 7) (d == 0) false (evenParity d) false (carryFlag f) d

/-- Flags of RRCA with the rotated accumulator `r`: C is the bit moved out; S, Z, P/V are kept (log 4). -/
def flagsRrca (f r : Byte) : Byte :=
  z80Flags (f.getLsbD 7) (zeroFlag f) false (f.getLsbD 2) false (r.getLsbD 7) r

/-- Flags of the block-I/O instructions: Z says that B became 0, N is set, C is kept, and the other bits are a free
value (log 27). -/
def flagsBlockIo (free f b : Byte) : Byte :=
  (free &&& 0xBC) ||| (if b == 0 then 0x40 else 0x00) ||| 0x02 ||| (f &&& 0x01)

end Sys2Proof.Machine
end

