-- ==== Sys2Proof/Machine/Operands.lean ====
section
/-! DEFINITION. Operand forms: the port address and the decode key of a request (spec/30_encoding.md R70, spec/40_port_dispatch.md R100), the fields of the control and command bytes (R82, R84), variant identifiers (R81), the text encoding (spec/45_engine.md R209) and the room of a load (R206). -/

namespace Sys2Proof.Machine

/-- The address the dispatcher uses: `addr[7:0]` (R100). -/
def portOf (addr : Word) : Byte := addr.low

/-- Key bit V (R70). -/
def Chip.keyV (c : Chip) : Bool :=
  match c.variant with
  | .acia => false
  | .usart => true

/-- Key bit PH (R70): the phase when USART is active, 0 when ACIA is. -/
def Chip.keyPH (c : Chip) : Bool :=
  match c.variant, c.phase with
  | .usart, .expectCommand => true
  | .usart, .expectMode => false
  | .acia, _ => false

/-- `K = {0, PH, V, W, addr[7:0]}` (R70, R100). -/
def Chip.portKey (c : Chip) (write : Bool) (addr : Word) : Key :=
  0#1 ++ BitVec.ofBool c.keyPH ++ BitVec.ofBool c.keyV ++ BitVec.ofBool write ++ portOf addr

/-- `K = {1, sel}`: a host call's key, `sel` being {0b000000, OP} for the operations that exist (R70). -/
def hostKey (sel : BitVec 11) : Key := 1#1 ++ sel

/-- The decode key a request forms in a chip state. -/
def Request.key (c : Chip) : Request → Key
  | .portRead addr => c.portKey false addr
  | .portWrite addr _ => c.portKey true addr
  | .host sel _ _ => hostKey sel

/-- The operands a request carries beside its key. -/
def Request.operands : Request → Operands
  | .portRead _ => Operands.zero
  | .portWrite _ d => { Operands.zero with data := d }
  | .host _ o _ => o

/-- Whether a request is a host call made while another had not ended (R61). -/
def Request.overlaps : Request → Bool
  | .portRead _ => false
  | .portWrite _ _ => false
  | .host _ _ overlapping => overlapping

/-- ACIA control `SR = D[0]` (R82). -/
def aciaSoftReset (d : Byte) : Bool := d.getLsbD 0

/-- ACIA control `RIE = D[7]`, the receive interrupt enable (R25, R82). -/
def aciaRxIe (d : Byte) : Bool := d.getLsbD 7

/-- ACIA control `TC = D[6:5]`; the transmit interrupt enable is `TC = 01` (R25, R82). -/
def aciaTxIe (d : Byte) : Bool := d.extractLsb' 5 2 == 0b01#2

/-- USART command `RxE = D[2]`, the receive interrupt enable (R29, R84). -/
def usartRxIe (d : Byte) : Bool := d.getLsbD 2

/-- USART command `TxEN = D[0]`, the transmit interrupt enable when `P_USART_TX_IE` = TXEN (R29, R84). -/
def usartTxIe : UsartTxIe → Byte → Bool
  | .never, _ => false
  | .txEn, d => d.getLsbD 0

/-- USART command `IR = D[6]`, internal reset (R29, R84). -/
def usartInternalReset (d : Byte) : Bool := d.getLsbD 6

/-- The USART's data port (R72, `P_USART_DATA_PORT`). -/
def dataPort : UsartDataPort → Byte
  | .port00 => 0x00
  | .port01 => 0x01

/-- The USART's command/status port: the other claimed port. -/
def controlPort : UsartDataPort → Byte
  | .port00 => 0x01
  | .port01 => 0x00

/-- The variant an identifier names (R81); any other identifier is unsupported. -/
def variantOfId : Nat → Option Variant
  | 0 => some .acia
  | 1 => some .usart
  | _ => none

/-- The UTF-8 bytes of a code point: 1 to 4 bytes, the first holding the high bits (D27). -/
def utf8OfCodePoint (n : Nat) : List Byte :=
  if n < 0x80 then [BitVec.ofNat 8 n]
  else if n < 0x800 then [BitVec.ofNat 8 (0xC0 + n / 0x40), BitVec.ofNat 8 (0x80 + n % 0x40)]
  else if n < 0x10000 then
    [BitVec.ofNat 8 (0xE0 + n / 0x1000), BitVec.ofNat 8 (0x80 + n / 0x40 % 0x40), BitVec.ofNat 8 (0x80 + n % 0x40)]
  else
    [BitVec.ofNat 8 (0xF0 + n / 0x40000), BitVec.ofNat 8 (0x80 + n / 0x1000 % 0x40),
      BitVec.ofNat 8 (0x80 + n / 0x40 % 0x40), BitVec.ofNat 8 (0x80 + n % 0x40)]

/-- The bytes of a character under `P_TEXT_ENCODING`. -/
def encodeChar : TextEncoding → Char → List Byte
  | .utf8, c => utf8OfCodePoint c.toNat

/-- The bytes of a text, character by character (R209). -/
def encodeText (e : TextEncoding) (text : List Char) : List Byte := text.flatMap (encodeChar e)

/-- `room`: the address space left from an origin (R206). -/
def loadRoom (origin : Nat) : Nat := if origin ≤ 0xFFFF then 0x10000 - origin else 0

/-- `n`: how many of the bytes are copied (R206). -/
def loadCount (bytes : List Byte) (origin : Nat) : Nat := min bytes.length (loadRoom origin)

end Sys2Proof.Machine
end

