-- ==== Sys2Proof/Machine/Ops.lean ====
section
/-! DEFINITION. The named operations over memory, the chip and the session, each written once: memory (spec/20_memory.md R50 to R52), the chip's register operations (spec/41_acia.md, 42_usart.md, 43_chip_interface.md), the dispatcher (spec/40_port_dispatch.md R103, R104), interrupt entry and the bridge (spec/44_interrupt_bridge.md), and the pump and the drain (spec/45_engine.md R190, R191). -/

namespace Sys2Proof.Machine

/-! ## Memory -/

/-- What an unlisted address reads as: DESIGN CHOICE 0x00, the vectors' `P_MEM_INIT` (log 7). -/
def memDefault : Byte := 0x00

/-- The byte at an address. -/
def Memory.read : Memory → Nat → Byte
  | [], _ => memDefault
  | (b, v) :: rest, a => if b = a then v else Memory.read rest a

/-- Store one byte, keeping the canonical form: the addresses rise, and no entry equals `memDefault`. -/
def Memory.write : Memory → Nat → Byte → Memory
  | [], a, v => if v = memDefault then [] else [(a, v)]
  | (b, w) :: rest, a, v =>
    if a < b then (if v = memDefault then (b, w) :: rest else (a, v) :: (b, w) :: rest)
    else if a = b then (if v = memDefault then rest else (a, v) :: rest)
    else (b, w) :: Memory.write rest a v

/-- The canonical form above a bound: every address is at least `lo` and below 65536, they rise, and no entry equals
`memDefault`. -/
def Memory.wfFrom : Nat → Memory → Bool
  | _, [] => true
  | lo, (a, v) :: rest =>
    decide (lo ≤ a) && decide (a < 0x10000) && decide (v ≠ memDefault) && Memory.wfFrom (a + 1) rest

/-- The canonical form. -/
def Memory.wf (m : Memory) : Bool := Memory.wfFrom 0 m

/-- `MemRead(a, 1)` (R12). -/
def Memory.read8 (m : Memory) (a : Word) : Byte := m.read a.toNat

/-- `MemWrite(a, 1, v)` (R12). -/
def Memory.write8 (m : Memory) (a : Word) (v : Byte) : Memory := m.write a.toNat v

/-- `MemRead(a, 2)`: little-endian, addresses modulo 2^16 (R50). -/
def Memory.read16 (m : Memory) (a : Word) : Word := Word.ofBytes (m.read8 (a + 1)) (m.read8 a)

/-- `MemWrite(a, 2, v)`: the low byte at `a`, the high byte at `a + 1` modulo 2^16 (R50). -/
def Memory.write16 (m : Memory) (a v : Word) : Memory := (m.write8 a v.low).write8 (a + 1) v.high

/-- Stores in order. -/
def Memory.writeAll : Memory → List (Word × Byte) → Memory
  | m, [] => m
  | m, (a, v) :: rest => Memory.writeAll (m.write8 a v) rest

/-- The copy loop of LOAD_PROGRAM: `MemWrite(origin + i, 1, bytes[i])` in order (R206). -/
def Memory.copy : Memory → Nat → List Byte → Memory
  | m, _, [] => m
  | m, at_, v :: rest => Memory.copy (m.write8 (BitVec.ofNat 16 at_) v) (at_ + 1) rest

/-! ## The chip's registers -/

/-- CHIP.CONSTRUCT (R154). -/
def Chip.construct (v : Variant) : Chip := Chip.fresh v

/-- A data-register read, either variant: the byte, and the receive register unoccupied (R111, R130). With nothing
waiting, the byte is the retained one (D10, log 20). -/
def Chip.readData (c : Chip) : Byte × Chip := (c.rxData, { c with rxFull := false })

/-- A data-register write, either variant: a byte still waiting is replaced (R113, R132). -/
def Chip.writeData (c : Chip) (d : Byte) : Chip := { c with txData := d, txFull := true }

/-- The ACIA soft reset: both buffers cleared (R112, D11). -/
def Chip.softReset (c : Chip) : Chip :=
  { c with rxFull := false, rxData := 0x00, txFull := false, txData := 0x00 }

/-- An ACIA control write (R112). -/
def Chip.writeControl (c : Chip) (d : Byte) : Chip :=
  if aciaSoftReset d then
    Chip.softReset { c with control := d, rxIe := aciaRxIe d, txIe := aciaTxIe d }
  else { c with control := d, rxIe := aciaRxIe d, txIe := aciaTxIe d }

/-- A USART mode byte (R133). -/
def Chip.writeMode (c : Chip) (d : Byte) : Chip := { c with mode := d, phase := .expectCommand }

/-- A USART command byte (R134). -/
def Chip.writeCommand (p : Params) (c : Chip) (d : Byte) : Chip :=
  { c with
    command := d
    rxIe := usartRxIe d
    txIe := usartTxIe p.usartTxIe d
    phase := if usartInternalReset d then .expectMode else c.phase }

/-- `push_rx` (R150): a byte offered to a full register is dropped and counted. -/
def Chip.pushRx (c : Chip) (b : Byte) : Chip :=
  if c.rxFull then { c with overrunCount := c.overrunCount + 1 } else { c with rxData := b, rxFull := true }

/-- `take_pending_tx` (R151). -/
def Chip.takeTx (c : Chip) : Option Byte × Chip :=
  if c.txFull then (some c.txData, { c with txFull := false }) else (none, c)

/-! ## The dispatcher -/

/-- The idle value (R8, R101). -/
def idleValue : Byte := 0xFF

/-- `read_port(addr)` in full (R103). -/
def Chip.readPort (p : Params) (c : Chip) (addr : Word) : Byte × Chip :=
  match c.variant with
  | .acia =>
    if portOf addr = 0x80 then (c.aciaStatus, c)
    else if portOf addr = 0x81 then c.readData
    else (idleValue, c)
  | .usart =>
    if portOf addr = dataPort p.usartDataPort then c.readData
    else if portOf addr = controlPort p.usartDataPort then (c.usartStatus, c)
    else (idleValue, c)

/-- `write_port(addr, D)` in full (R104). -/
def Chip.writePort (p : Params) (c : Chip) (addr : Word) (d : Byte) : Chip :=
  match c.variant with
  | .acia =>
    if portOf addr = 0x80 then c.writeControl d
    else if portOf addr = 0x81 then c.writeData d
    else c
  | .usart =>
    if portOf addr = dataPort p.usartDataPort then c.writeData d
    else if portOf addr = controlPort p.usartDataPort then
      match c.phase with
      | .expectMode => c.writeMode d
      | .expectCommand => c.writeCommand p d
    else c

/-! ## The session -/

/-- The result of the request. -/
def State.answer (s : State) (r : Result) : State := { s with result := r }

/-- A refusal (R12, R232): the mark is set, and nothing clears it. -/
def State.refuse (s : State) (c : RefusalCode) : State :=
  { s with refused := true, refusals := s.refusals ++ [c] }

/-- `interrupt_requested()` of the session's chip (R33). -/
def State.requested (s : State) : Bool := s.chip.interruptRequested

/-- TAKING AN INTERRUPT in mode 1, INJECT_RST38 (R172, R173, R236): the halt ends, SP falls by 2, PC is pushed
little-endian, PC is 0x0038, IFF1 and IFF2 are false. Nothing else changes. -/
def State.injectRst38 (s : State) : State :=
  { s with
    cpu := { s.cpu with pc := 0x0038, sp := s.cpu.sp - 2, iff1 := false, iff2 := false, halted := false }
    mem := s.mem.write16 (s.cpu.sp - 2) s.cpu.pc }

/-- THE RETURN beside it (R237): the CPU's RET and RETI pop PC. The block has no return operation; the engine does this. -/
def Cpu.popReturn (c : Cpu) (m : Memory) : Cpu := { c with pc := m.read16 c.sp, sp := c.sp + 2 }

/-- The T-states an injection is charged (R8, R194). -/
def injectionCycles : Nat := 13

/-- `ei_shadow_blocks()` (R178). -/
def State.eiShadowBlocks (s : State) : Bool := s.params.honourEiShadow && s.cpu.lastWasEi

/-- The condition of an injection (R170, R171): IM 1, IFF1, the request, and no EI shadow. -/
def State.injects (s : State) : Bool :=
  s.cpu.im == .im1 && s.cpu.iff1 && s.requested && !s.eiShadowBlocks

/-- The condition of the IM0 refusal (R176). -/
def State.im0Pending (s : State) : Bool := s.cpu.im == .im0 && s.cpu.iff1 && s.requested

/-- The level the bridge drives onto the mode-2 request line (R177). -/
def State.irqLevel (s : State) : Bool := s.cpu.im == .im2 && s.requested

/-- One evaluation of the bridge (R170): (cycles, skip), and the session after it. -/
def State.bridge (s : State) : (Nat × Bool) × State :=
  if s.injects then ((injectionCycles, true), { s.injectRst38 with irqLine := false })
  else if s.im0Pending then ((0, false), State.refuse { s with irqLine := false } .im0Unmodelled)
  else ((0, false), { s with irqLine := s.irqLevel })

/-- The pump (R190): one host byte into an empty receive register. -/
def State.pump (s : State) : State :=
  if s.chip.rxFull then s
  else
    match s.hostFifo with
    | [] => s
    | b :: rest => { s with chip := s.chip.pushRx b, hostFifo := rest }

/-- The drain (R191): the transmitted byte, if any, to the end of the output buffer. -/
def State.drainTx (s : State) : State :=
  match s.chip.takeTx with
  | (some b, c) => { s with chip := c, outBuf := s.outBuf ++ [b] }
  | (none, _) => s

/-- `wake_possible()` (R197). -/
def State.wakePossible (s : State) : Bool :=
  s.cpu.iff1 && s.requested && (s.cpu.im == .im1 || s.cpu.im == .im2)

/-- The engine's reset (R207): of the Z80, its reset state (logs 5, 24); of an external engine, any (log 24). The
memory is kept. -/
def State.engineReset (s : State) : State :=
  match s.params.engine with
  | .vectorZ80 => { s with cpu := Cpu.reset }
  | .external => { s with cpu := Config.externalReset s.engineTick s.cpu, engineTick := s.engineTick + 1 }

end Sys2Proof.Machine
end

