-- ==== Sys2Proof/Machine/Z80.lean ====
section
/-! DEFINITION. The engine of the spec's test vectors: the Z80 instructions of spec/70_reset_and_hazards.md R280 and spec/30_encoding.md R87, with those R237 and R263 name, the halted cycle (spec/45_engine.md R195) and the mode-2 acceptance (spec/60_exceptions.md R236). PRESUMED where the spec gives no figure (log 4). On any other opcode it is the free value `Config.externalStep`. The block's own rules rest on none of this. -/

namespace Sys2Proof.Machine

/-- R advances by one for each opcode byte fetched, in its low seven bits (log 4). -/
def GenRegs.advanceR (g : GenRegs) (n : Nat) : GenRegs :=
  { g with r := (g.r &&& 0x80) ||| ((g.r + BitVec.ofNat 8 n) &&& 0x7F) }

def GenRegs.bc (g : GenRegs) : Word := Word.ofBytes g.b g.c

def GenRegs.hl (g : GenRegs) : Word := Word.ofBytes g.h g.l

def GenRegs.setHl (g : GenRegs) (w : Word) : GenRegs := { g with h := w.high, l := w.low }

/-- The 8-bit register that a 3-bit field names; field 6 names none. -/
def GenRegs.reg8 (g : GenRegs) (n : Nat) : Byte :=
  match n with
  | 0 => g.b
  | 1 => g.c
  | 2 => g.d
  | 3 => g.e
  | 4 => g.h
  | 5 => g.l
  | _ => g.a

def GenRegs.setReg8 (g : GenRegs) (n : Nat) (x : Byte) : GenRegs :=
  match n with
  | 0 => { g with b := x }
  | 1 => { g with c := x }
  | 2 => { g with d := x }
  | 3 => { g with e := x }
  | 4 => { g with h := x }
  | 5 => { g with l := x }
  | _ => { g with a := x }

/-- What every executed instruction leaves: R advanced by its opcode bytes, PC moved on, no EI just executed. -/
def Cpu.after (c : Cpu) (opcodeBytes : Nat) (length : Word) : Cpu :=
  { c with pc := c.pc + length, regs := c.regs.advanceR opcodeBytes, lastWasEi := false }

/-- A relative jump of a two-byte instruction whose displacement is `e`, taken or not: 12 or 7 T-states (R280). -/
def Cpu.relative (c : Cpu) (e : Byte) (taken : Bool) : EngineRun :=
  if taken then .done { c.after 1 2 with pc := c.pc + 2 + e.signExtend 16 } [] 12 else .done (c.after 1 2) [] 7

/-- The PC that a halted engine holds (`P_HALT_PC`, R173): after the HALT, or at it. -/
def Cpu.halt (c : Cpu) : HaltPc → EngineRun
  | .afterHalt => .done { c.after 1 1 with halted := true } [] 4
  | .atHalt => .done { c.after 1 0 with halted := true } [] 4

/-- INI, IND and their repeating forms: one port read, the byte to (HL), HL moved by `delta`, B decremented; a
repeating form stays at its own address until B is 0. -/
def Cpu.blockIn (c : Cpu) (view : EngineView) (delta : Word) (repeats : Bool) : EngineRun :=
  .portRead c.regs.bc fun d =>
    let b := c.regs.b - 1
    let g := (c.regs.setHl (c.regs.hl + delta)).advanceR 2
    let g := { g with b := b, f := flagsBlockIo (Config.unknownFlags view) c.regs.f b }
    if repeats && b != 0 then .done { c with regs := g, lastWasEi := false } [(c.regs.hl, d)] 21
    else .done { c with pc := c.pc + 2, regs := g, lastWasEi := false } [(c.regs.hl, d)] 16

/-- OUTI, OUTD and their repeating forms: B decremented, the byte at (HL) written to the port, HL moved by `delta`. -/
def Cpu.blockOut (c : Cpu) (view : EngineView) (delta : Word) (repeats : Bool) : EngineRun :=
  let b := c.regs.b - 1
  let g := (c.regs.setHl (c.regs.hl + delta)).advanceR 2
  let g := { g with b := b, f := flagsBlockIo (Config.unknownFlags view) c.regs.f b }
  .portWrite (Word.ofBytes b c.regs.c) (view.mem.read8 c.regs.hl)
    (if repeats && b != 0 then .done { c with regs := g, lastWasEi := false } [] 21
     else .done { c with pc := c.pc + 2, regs := g, lastWasEi := false } [] 16)

/-- IN r,(C) and OUT (C),r for the opcode byte ED xx with xx = 01 rrr 00w, rrr not 110 (R87). -/
def Cpu.portRegister (c : Cpu) (n : Nat) (write : Bool) : EngineRun :=
  if write then .portWrite c.regs.bc (c.regs.reg8 n) (.done (c.after 2 2) [] 12)
  else
    .portRead c.regs.bc fun d =>
      let c' := c.after 2 2
      .done { c' with regs := { c'.regs.setReg8 n d with f := flagsIn c.regs.f d } } [] 12

/-- The instructions behind the prefix ED. -/
def extendedStep (v : EngineView) (op : Nat) : EngineRun :=
  let c := v.cpu
  match op with
  | 0x46 => .done { c.after 2 2 with im := .im0 } [] 8
  | 0x56 => .done { c.after 2 2 with im := .im1 } [] 8
  | 0x5E => .done { c.after 2 2 with im := .im2 } [] 8
  | 0x47 => let c' := c.after 2 2; .done { c' with regs := { c'.regs with i := c.regs.a } } [] 9
  | 0x4D => .done ((c.after 2 2).popReturn v.mem) [] 14
  | 0xA2 => c.blockIn v 1 false
  | 0xB2 => c.blockIn v 1 true
  | 0xAA => c.blockIn v (-1) false
  | 0xBA => c.blockIn v (-1) true
  | 0xA3 => c.blockOut v 1 false
  | 0xB3 => c.blockOut v 1 true
  | 0xAB => c.blockOut v (-1) false
  | 0xBB => c.blockOut v (-1) true
  | _ =>
    if 0x40 ≤ op && op < 0x80 && op % 8 < 2 && op / 8 % 8 != 6 then c.portRegister (op / 8 % 8) (op % 8 == 1)
    else Config.externalStep v

/-- The instructions without a prefix. -/
def plainStep (v : EngineView) : EngineRun :=
  let c := v.cpu
  let n := v.mem.read8 (c.pc + 1)
  match (v.mem.read8 c.pc).toNat with
  | 0x00 => .done (c.after 1 1) [] 4
  | 0x0F =>
    let r := c.regs.a.rotateRight 1
    let c' := c.after 1 1
    .done { c' with regs := { c'.regs with a := r, f := flagsRrca c.regs.f r } } [] 4
  | 0x18 => c.relative n true
  | 0x28 => c.relative n (zeroFlag c.regs.f)
  | 0x30 => c.relative n (!carryFlag c.regs.f)
  | 0x31 => .done { c.after 1 3 with sp := v.mem.read16 (c.pc + 1) } [] 10
  | 0x3E => let c' := c.after 1 2; .done { c' with regs := { c'.regs with a := n } } [] 7
  | 0x76 => c.halt v.haltPc
  | 0xC9 => .done ((c.after 1 1).popReturn v.mem) [] 10
  | 0xD3 => .portWrite (Word.ofBytes c.regs.a n) c.regs.a (.done (c.after 1 2) [] 11)
  | 0xDB =>
    .portRead (Word.ofBytes c.regs.a n) fun d =>
      let c' := c.after 1 2
      .done { c' with regs := { c'.regs with a := d } } [] 11
  | 0xE6 =>
    let r := c.regs.a &&& n
    let c' := c.after 1 2
    .done { c' with regs := { c'.regs with a := r, f := flagsAnd r } } [] 7
  | 0xED => extendedStep v n.toNat
  | 0xFB => .done { c.after 1 1 with iff1 := true, iff2 := true, lastWasEi := true } [] 4
  | _ => Config.externalStep v

/-- The mode-2 acceptance (R175, R236): PC pushed, then PC loaded from the word at {I, vector} of the memory with the push
in it, both flip-flops cleared, the halt ended; 19 T-states, PRESUMED (log 29). -/
def acceptMode2 (v : EngineView) : EngineRun :=
  let c := v.cpu
  .done
    { c with
      pc := (v.mem.write16 (c.sp - 2) c.pc).read16 (Word.ofBytes c.regs.i v.vector)
      sp := c.sp - 2
      iff1 := false
      iff2 := false
      halted := false
      lastWasEi := false
      regs := c.regs.advanceR 1 }
    [(c.sp - 2, c.pc.low), (c.sp - 1, c.pc.high)] 19

/-- One step of the vectors' engine: the mode-2 acceptance where it is due (the Z80's own EI delay is kept, log 29),
else a halted cycle of 4 T-states with PC held (R195), else one instruction. -/
def vectorStep (v : EngineView) : EngineRun :=
  if v.intReq && v.cpu.im == .im2 && v.cpu.iff1 && !v.cpu.lastWasEi then acceptMode2 v
  else if v.cpu.halted then .done { v.cpu with regs := v.cpu.regs.advanceR 1, lastWasEi := false } [] 4
  else plainStep v

end Sys2Proof.Machine
end

