-- ==== Sys2Proof/Machine/Sched.lean ====
section
/-! DEFINITION. The scheduling step (spec/45_engine.md R192 to R198): the CPU step, the core of a step, the run loop; and the fetch of the next request (spec/30_encoding.md R70, R71). -/

namespace Sys2Proof.Machine

/-- What the engine sees of the session. -/
def State.engineView (s : State) : EngineView where
  cpu := s.cpu
  mem := s.mem
  intReq := s.irqLine
  vector := s.params.im2Vector
  haltPc := s.params.haltPc
  tick := s.engineTick

/-- The engine's `step_one_instruction()`, `P_CPU_STEP` (R195, logs 2, 3, 4). -/
def State.engineProgram (s : State) : EngineRun :=
  match s.params.engine with
  | .vectorZ80 => vectorStep s.engineView
  | .external => Config.externalStep s.engineView

/-- Carry an engine step out: its port accesses reach the dispatcher as they come (R195), then its new state and its
memory writes stand. Returns the T-states. -/
def EngineRun.exec : EngineRun → State → Nat × State
  | .done cpu writes t, s => (t, { s with cpu := cpu, mem := s.mem.writeAll writes })
  | .portRead addr k, s =>
    EngineRun.exec (k (s.chip.readPort s.params addr).1) { s with chip := (s.chip.readPort s.params addr).2 }
  | .portWrite addr d k, s => EngineRun.exec k { s with chip := s.chip.writePort s.params addr d }

/-- The engine step's outcome before the check of R195. -/
def State.engineOutcome (s : State) : Nat × State :=
  s.engineProgram.exec { s with engineTick := s.engineTick + 1 }

/-- `CpuStep()` (R195): a step that returns 0 T-states is refused, ZeroCycleStep (log 15). -/
def State.cpuStep (s : State) : Nat × State :=
  if s.engineOutcome.1 = 0 then (0, s.engineOutcome.2.refuse .zeroCycleStep) else s.engineOutcome

/-- Parts (b) and (c) of a step (R193): the bridge, then the CPU step unless the bridge took the step (R196). -/
def State.advance (s : State) : Nat × State :=
  if s.bridge.1.2 then (s.bridge.1.1, s.bridge.2) else s.bridge.2.cpuStep

/-- `core()` (R193): the bridge, the CPU step or the injection, the drain, and the cycle account (R194). -/
def State.core (s : State) : Nat × State :=
  (s.advance.1,
    { s.advance.2.drainTx with totalCycles := s.advance.2.drainTx.totalCycles + s.advance.1 })

/-- `step()` (R193): one whole iteration, the pump and then the core. -/
def State.iteration (s : State) : Nat × State := s.pump.core

/-- Whether the run loop stops after the pump (R198): halted, and nothing pending can wake the CPU. -/
def State.stopsHalted (s : State) : Bool := s.cpu.halted && !s.wakePossible

/-- The halt stop's refusal (R198, R176). -/
def State.haltStop (s : State) : State := if s.im0Pending then s.refuse .im0Unmodelled else s

/-- The loop of `run(max_cycles)` (R198), with `acc` so far. A step that is not refused adds at least 1, so `max_cycles`
iterations are enough; a refused step (0 T-states) ends the loop (log 15). -/
def State.runLoop (maxCycles : Nat) : Nat → Nat → State → Nat × State
  | 0, acc, s => (acc, s)
  | fuel + 1, acc, s =>
    if acc < maxCycles then
      if s.pump.stopsHalted then (acc, s.pump.haltStop)
      else if s.pump.core.1 = 0 then (acc, s.pump.core.2)
      else State.runLoop maxCycles fuel (acc + s.pump.core.1) s.pump.core.2
    else (acc, s)

/-- `run(max_cycles)` (R198): the cycles run, and the session after them. -/
def State.run (maxCycles : Nat) (s : State) : Nat × State := State.runLoop maxCycles maxCycles 0 s

/-- What the next step does (R7: one transition is one port access, one host call or one scheduling step). -/
inductive Fetched where
  /-- no request: the session advances only when invoked (R60) -/
  | idle
  /-- a host call that overlaps another (R61) -/
  | overlapping (s : State)
  /-- a key that no row has (R85) -/
  | reserved (s : State)
  /-- an instruction, in the session without its request -/
  | instr (i : Instr) (s : State)
deriving DecidableEq, Repr

/-- Take the next request, form its key (R70), and decode it (R71). -/
def State.fetch (s : State) : Fetched :=
  match s.pending with
  | [] => .idle
  | r :: rest =>
    if r.overlaps then .overlapping { s with pending := rest }
    else
      match decode s.params.usartDataPort (r.key s.chip) r.operands with
      | .ok i => .instr i { s with pending := rest }
      | .error .reservedHostOp => .reserved { s with pending := rest }

/-- A request turned away by a refusal: the mark, and the result that names it (R232, logs 16, 17). -/
def State.refuseRequest (s : State) (c : RefusalCode) : State := (s.refuse c).answer (.refused c)

/-- The request whose key is a table word, with zero operands, and the session in which it forms that key: the variant
and the phase are the key's V and PH bits, and the data port is the table's (log 11). -/
def requestOfKey (k : Key) : Request :=
  if k.getLsbD 11 then .host (k.extractLsb' 0 11) Operands.zero false
  else if k.getLsbD 8 then .portWrite ((k.extractLsb' 0 8).setWidth 16) 0x00
  else .portRead ((k.extractLsb' 0 8).setWidth 16)

/-- The chip state in which a port cycle forms the key's V and PH. A host key needs none. -/
def Chip.forKey (c : Chip) (k : Key) : Chip :=
  if k.getLsbD 11 then c
  else if k.getLsbD 9 then
    { c with variant := .usart, phase := if k.getLsbD 10 then .expectCommand else .expectMode }
  else { c with variant := .acia }

/-- The parameters under which a table word means what the table says. -/
def paramsForKey (p : Params) (k : Key) : Params :=
  if k.getLsbD 11 then p else { p with usartDataPort := .port00 }

/-- The session whose next step carries out the operation of key `k`, operands zero. -/
def State.withKey (s : State) (k : Key) : State :=
  { s with params := paramsForKey s.params k, chip := s.chip.forKey k, pending := requestOfKey k :: s.pending }

end Sys2Proof.Machine
end

