-- ==== Sys2Proof/Machine/Acia.lean ====
section
/-! DEFINITION. The ACIA's register operations (spec/41_acia.md R110 to R113). -/

namespace Sys2Proof.Machine

/-- ACIA.RD_STATUS (R110). -/
def execAciaRdStatus (s : State) : Host.Outcome State Fault Refusal :=
  .next (s.answer (.ok (.byte s.chip.aciaStatus)))

/-- ACIA.RD_DATA (R111). -/
def execAciaRdData (s : State) : Host.Outcome State Fault Refusal :=
  .next ({ s with chip := s.chip.readData.2 }.answer (.ok (.byte s.chip.readData.1)))

/-- ACIA.WR_CONTROL (R112). -/
def execAciaWrControl (d : Byte) (s : State) : Host.Outcome State Fault Refusal :=
  .next ({ s with chip := s.chip.writeControl d }.answer (.ok .unit))

/-- ACIA.WR_DATA (R113). -/
def execAciaWrData (d : Byte) (s : State) : Host.Outcome State Fault Refusal :=
  .next ({ s with chip := s.chip.writeData d }.answer (.ok .unit))

end Sys2Proof.Machine
end

