-- ==== Sys2Proof/Machine/Bridge.lean ====
section
/-! DEFINITION. The interrupt bridge as an operation of its own (spec/44_interrupt_bridge.md R170). -/

namespace Sys2Proof.Machine

/-- BRIDGE.EVALUATE (R170): the evaluation, and (cycles, skip) returned. The cycles are charged by the scheduling step, not here (R172). -/
def execBridgeEvaluate (s : State) : Host.Outcome State Fault Refusal :=
  .next (s.bridge.2.answer (.ok (.evaluation s.bridge.1.1 s.bridge.1.2)))

end Sys2Proof.Machine
end

