-- ==== Sys2Proof/Machine/Bus.lean ====
section
/-! DEFINITION. The dispatcher's idle accesses (spec/40_port_dispatch.md R101, R102). -/

namespace Sys2Proof.Machine

/-- BUS.IDLE_READ (R101): 0xFF, no state read or written. -/
def execIdleRead (_v : Variant) (_a : Byte) (s : State) : Host.Outcome State Fault Refusal :=
  .next (s.answer (.ok (.byte idleValue)))

/-- BUS.IDLE_WRITE (R102): a no-op; D is discarded. -/
def execIdleWrite (_v : Variant) (_a _d : Byte) (s : State) : Host.Outcome State Fault Refusal :=
  .next (s.answer (.ok .unit))

end Sys2Proof.Machine
end

