-- ==== Sys2Proof/Machine/ChipHost.lean ====
section
/-! DEFINITION. The chip's host-side operations (spec/43_chip_interface.md R150 to R154). -/

namespace Sys2Proof.Machine

/-- CHIP.PUSH_RX (R150). -/
def execChipPushRx (b : Byte) (s : State) : Host.Outcome State Fault Refusal :=
  .next ({ s with chip := s.chip.pushRx b }.answer (.ok .unit))

/-- CHIP.TAKE_PENDING_TX (R151). -/
def execChipTakePendingTx (s : State) : Host.Outcome State Fault Refusal :=
  .next ({ s with chip := s.chip.takeTx.2 }.answer (.ok (.optByte s.chip.takeTx.1)))

/-- CHIP.HAS_PENDING_RX (R152). -/
def execChipHasPendingRx (s : State) : Host.Outcome State Fault Refusal :=
  .next (s.answer (.ok (.flag s.chip.rxFull)))

/-- CHIP.INTERRUPT_REQUESTED (R153). -/
def execChipInterruptRequested (s : State) : Host.Outcome State Fault Refusal :=
  .next (s.answer (.ok (.flag s.requested)))

/-- CHIP.CONSTRUCT (R154); an identifier that names no variant raises ConfigurationError and changes nothing (R81, log 19). -/
def execChipConstruct (id : Nat) (s : State) : Host.Outcome State Fault Refusal :=
  match variantOfId id with
  | some v => .next ({ s with chip := Chip.construct v }.answer (.ok .unit))
  | none => .next (s.answer (.error (.configurationError id)))

end Sys2Proof.Machine
end

