-- ==== Sys2Proof/Machine/Engine.lean ====
section
/-! DEFINITION. The engine's parts and host operations (spec/45_engine.md R190, R191, R198, R199, R205 to R212). -/

namespace Sys2Proof.Machine

/-- ENG.PUMP (R190). -/
def execEngPump (s : State) : Host.Outcome State Fault Refusal := .next (s.pump.answer (.ok .unit))

/-- ENG.DRAIN_TX (R191). -/
def execEngDrainTx (s : State) : Host.Outcome State Fault Refusal := .next (s.drainTx.answer (.ok .unit))

/-- ENG.CONFIGURE (R205). -/
def execEngConfigure (id : Nat) (s : State) : Host.Outcome State Fault Refusal :=
  match variantOfId id with
  | some v => .next ({ s with chip := Chip.construct v, irqLine := false }.answer (.ok .unit))
  | none => .next (s.answer (.error (.configurationError id)))

/-- The result of a load (R206): truncation is a warning, not a failure. -/
def loadResult (bytes : List Byte) (origin : Nat) : Result :=
  if loadCount bytes origin < bytes.length then
    .okWithWarning (.natural (loadCount bytes origin)) (.loadError (loadCount bytes origin))
  else .ok (.natural (loadCount bytes origin))

/-- ENG.LOAD_PROGRAM (R206). -/
def execEngLoadProgram (bytes : List Byte) (origin : Nat) (s : State) : Host.Outcome State Fault Refusal :=
  .next ({ s with mem := s.mem.copy origin (bytes.take (loadCount bytes origin)) }.answer (loadResult bytes origin))

/-- ENG.RESET (R207). -/
def execEngReset (s : State) : Host.Outcome State Fault Refusal :=
  .next
    ({ s.engineReset with
        chip := Chip.construct s.chip.variant
        totalCycles := 0
        irqLine := false
        hostFifo := if s.params.resetClearsHostBuffers then [] else s.hostFifo
        outBuf := if s.params.resetClearsHostBuffers then [] else s.outBuf }.answer (.ok .unit))

/-- ENG.RUN (R198): returns actual_cycles. -/
def execEngRun (maxCycles : Nat) (s : State) : Host.Outcome State Fault Refusal :=
  .next ((s.run maxCycles).2.answer (.ok (.natural (s.run maxCycles).1)))

/-- ENG.STEP_ONE (R199): returns actual_cycles. -/
def execEngStepOne (s : State) : Host.Outcome State Fault Refusal :=
  .next (s.iteration.2.answer (.ok (.natural s.iteration.1)))

/-- ENG.PUSH_INPUT_BYTE (R208). -/
def execEngPushInputByte (b : Byte) (s : State) : Host.Outcome State Fault Refusal :=
  .next ({ s with hostFifo := s.hostFifo ++ [b] }.answer (.ok .unit))

/-- ENG.PUSH_INPUT_STRING (R209). -/
def execEngPushInputString (text : List Char) (s : State) : Host.Outcome State Fault Refusal :=
  .next ({ s with hostFifo := s.hostFifo ++ encodeText s.params.textEncoding text }.answer (.ok .unit))

/-- ENG.DRAIN_OUTPUT (R210). -/
def execEngDrainOutput (s : State) : Host.Outcome State Fault Refusal :=
  .next ({ s with outBuf := [] }.answer (.ok (.bytes s.outBuf)))

/-- The snapshot (R212). -/
def State.snapshot (s : State) : Snapshot where
  pc := s.cpu.pc
  sp := s.cpu.sp
  registers := s.cpu.regs
  flags := s.cpu.regs.f
  im := s.cpu.im
  halted := s.cpu.halted
  totalCycles := s.totalCycles
  iff1 := s.cpu.iff1
  iff2 := s.cpu.iff2
  chip := s.chip
  hostFifoLen := s.hostFifo.length
  refused := s.refused

/-- ENG.QUERY_STATE (R212): no side effect. -/
def execEngQueryState (s : State) : Host.Outcome State Fault Refusal :=
  .next (s.answer (.ok (.snapshot s.snapshot)))

end Sys2Proof.Machine
end

