-- ==== Sys2Proof/Machine/Usart.lean ====
section
/-! DEFINITION. The USART's register operations (spec/42_usart.md R130 to R134). -/

namespace Sys2Proof.Machine

/-- USART.RD_DATA (R130). -/
def execUsartRdData (s : State) : Host.Outcome State Fault Refusal :=
  .next ({ s with chip := s.chip.readData.2 }.answer (.ok (.byte s.chip.readData.1)))

/-- USART.RD_STATUS (R131). -/
def execUsartRdStatus (s : State) : Host.Outcome State Fault Refusal :=
  .next (s.answer (.ok (.byte s.chip.usartStatus)))

/-- USART.WR_DATA (R132), in either phase. -/
def execUsartWrData (d : Byte) (s : State) : Host.Outcome State Fault Refusal :=
  .next ({ s with chip := s.chip.writeData d }.answer (.ok .unit))

/-- USART.WR_MODE (R133). -/
def execUsartWrMode (d : Byte) (s : State) : Host.Outcome State Fault Refusal :=
  .next ({ s with chip := s.chip.writeMode d }.answer (.ok .unit))

/-- USART.WR_COMMAND (R134). -/
def execUsartWrCommand (d : Byte) (s : State) : Host.Outcome State Fault Refusal :=
  .next ({ s with chip := s.chip.writeCommand s.params d }.answer (.ok .unit))

end Sys2Proof.Machine
end

