-- ==== Sys2Proof/Machine/Dispatch.lean ====
section
/-! DEFINITION. The dispatch: one arm per row of spec/opcode_table.json. -/

namespace Sys2Proof.Machine

def exec (i : Instr) (s : State) : Host.Outcome State Fault Refusal :=
  match i with
  | .aciaRdStatus => Sys2Proof.Machine.execAciaRdStatus s
  | .aciaRdData => Sys2Proof.Machine.execAciaRdData s
  | .aciaWrControl d => Sys2Proof.Machine.execAciaWrControl d s
  | .aciaWrData d => Sys2Proof.Machine.execAciaWrData d s
  | .usartRdData => Sys2Proof.Machine.execUsartRdData s
  | .usartRdStatus => Sys2Proof.Machine.execUsartRdStatus s
  | .usartWrData d => Sys2Proof.Machine.execUsartWrData d s
  | .usartWrMode d => Sys2Proof.Machine.execUsartWrMode d s
  | .usartWrCommand d => Sys2Proof.Machine.execUsartWrCommand d s
  | .idleRead v a => Sys2Proof.Machine.execIdleRead v a s
  | .idleWrite v a d => Sys2Proof.Machine.execIdleWrite v a d s
  | .chipPushRx b => Sys2Proof.Machine.execChipPushRx b s
  | .chipTakePendingTx => Sys2Proof.Machine.execChipTakePendingTx s
  | .chipHasPendingRx => Sys2Proof.Machine.execChipHasPendingRx s
  | .chipInterruptRequested => Sys2Proof.Machine.execChipInterruptRequested s
  | .chipConstruct id => Sys2Proof.Machine.execChipConstruct id s
  | .bridgeEvaluate => Sys2Proof.Machine.execBridgeEvaluate s
  | .engPump => Sys2Proof.Machine.execEngPump s
  | .engDrainTx => Sys2Proof.Machine.execEngDrainTx s
  | .engConfigure id => Sys2Proof.Machine.execEngConfigure id s
  | .engLoadProgram bytes origin => Sys2Proof.Machine.execEngLoadProgram bytes origin s
  | .engReset => Sys2Proof.Machine.execEngReset s
  | .engRun maxCycles => Sys2Proof.Machine.execEngRun maxCycles s
  | .engStepOne => Sys2Proof.Machine.execEngStepOne s
  | .engPushInputByte b => Sys2Proof.Machine.execEngPushInputByte b s
  | .engPushInputString text => Sys2Proof.Machine.execEngPushInputString text s
  | .engDrainOutput => Sys2Proof.Machine.execEngDrainOutput s
  | .engQueryState => Sys2Proof.Machine.execEngQueryState s

end Sys2Proof.Machine
end

