-- ==== Sys2Proof/Machine/Step.lean ====
section
/-! DEFINITION. One step: the next request carried out whole (spec/00_scope.md R7, spec/20_memory.md R56, R60). -/

namespace Sys2Proof.Machine

/-- One transition. With no request the session does not advance (R60); a turned-away request sets the mark (R232). -/
def step (s : State) : Host.Outcome State Fault Refusal :=
  match s.fetch with
  | .idle => .next s
  | .overlapping s' => .next (s'.refuseRequest .concurrentCall)
  | .reserved s' => .next (s'.refuseRequest .reservedHostOp)
  | .instr i s' => exec i s'

/-- `s` with the operation of a table word, operands zero, as its next request (log 11). -/
def State.withFetchWord (s : State) (nbits w : Nat) : State := s.withKey (BitVec.ofNat 12 (w % 2 ^ nbits))

end Sys2Proof.Machine
end

