-- ==== Sys2Proof/Safety.lean ====
section
/-! DEFINITION. The terms the statements are written in: the invariant of the session, the frames, and the run loop as a relation. -/

namespace Sys2Proof

/-! ## Classes of operations -/

/-- The operations that the files 40 to 43 of the spec define: port cycles and the chip's host side (R13). -/
def Instr.chipOnly : Instr → Bool
  | .aciaRdStatus | .aciaRdData | .aciaWrControl _ | .aciaWrData _ => true
  | .usartRdData | .usartRdStatus | .usartWrData _ | .usartWrMode _ | .usartWrCommand _ => true
  | .idleRead _ _ | .idleWrite _ _ _ => true
  | .chipPushRx _ | .chipTakePendingTx | .chipHasPendingRx | .chipInterruptRequested | .chipConstruct _ => true
  | .bridgeEvaluate | .engPump | .engDrainTx | .engConfigure _ | .engLoadProgram _ _ | .engReset => false
  | .engRun _ | .engStepOne | .engPushInputByte _ | .engPushInputString _ | .engDrainOutput | .engQueryState => false

/-- The operations that run the CPU or take an interrupt: only these move the CPU on. -/
def Instr.runsCpu : Instr → Bool
  | .bridgeEvaluate | .engRun _ | .engStepOne => true
  | .aciaRdStatus | .aciaRdData | .aciaWrControl _ | .aciaWrData _ => false
  | .usartRdData | .usartRdStatus | .usartWrData _ | .usartWrMode _ | .usartWrCommand _ => false
  | .idleRead _ _ | .idleWrite _ _ _ => false
  | .chipPushRx _ | .chipTakePendingTx | .chipHasPendingRx | .chipInterruptRequested | .chipConstruct _ => false
  | .engPump | .engDrainTx | .engConfigure _ | .engLoadProgram _ _ | .engReset => false
  | .engPushInputByte _ | .engPushInputString _ | .engDrainOutput | .engQueryState => false

/-- The operations that write the interrupt enables or the USART phase, or run CPU instructions that may (R24, R135). -/
def Instr.writesEnablesOrPhase : Instr → Bool
  | .aciaWrControl _ | .usartWrMode _ | .usartWrCommand _ => true
  | .chipConstruct _ | .engConfigure _ | .engReset | .engRun _ | .engStepOne => true
  | .aciaRdStatus | .aciaRdData | .aciaWrData _ | .usartRdData | .usartRdStatus | .usartWrData _ => false
  | .idleRead _ _ | .idleWrite _ _ _ => false
  | .chipPushRx _ | .chipTakePendingTx | .chipHasPendingRx | .chipInterruptRequested => false
  | .bridgeEvaluate | .engPump | .engDrainTx | .engLoadProgram _ _ => false
  | .engPushInputByte _ | .engPushInputString _ | .engDrainOutput | .engQueryState => false

namespace Machine

/-! ## The invariant -/

/-- The enable flags agree with the register that sets them (spec/10_state.md R24, R25, R29): they are written only by
the writes those rules name and by chip construction. -/
def Chip.enablesAgree (p : Params) (c : Chip) : Bool :=
  match c.variant with
  | .acia => c.rxIe == c.control.getLsbD 7 && c.txIe == (c.control.extractLsb' 5 2 == 0b01#2)
  | .usart => c.rxIe == c.command.getLsbD 2 && c.txIe == (p.usartTxIe == .txEn && c.command.getLsbD 0)

/-- The fields the active variant lacks keep their construction values (R35, R41). -/
def Chip.absentFieldsFresh (c : Chip) : Bool :=
  match c.variant with
  | .acia => c.mode == 0x00 && c.command == 0x00 && c.phase == .expectMode
  | .usart => c.control == 0x00

/-- The invariant: memory in canonical form, the enables in agreement with their registers, the absent fields fresh,
and the `refused` mark set exactly when some refusal was raised (R232). -/
def State.inv (s : State) : Bool :=
  s.mem.wf && s.chip.enablesAgree s.params && s.chip.absentFieldsFresh && (s.refused == !s.refusals.isEmpty)

abbrev State.Inv (s : State) : Prop := s.inv = true

/-! ## Frames -/

/-- Every byte of memory reads as before. -/
def State.SameMemory (s t : State) : Prop := ∀ a : Word, t.mem.read8 a = s.mem.read8 a

/-- The session beside chip, CPU and memory is as before: parameters, cycle count, buffers, line, marks, requests and
counter. -/
def State.SameSession (s t : State) : Prop :=
  t.params = s.params ∧ t.totalCycles = s.totalCycles ∧ t.hostFifo = s.hostFifo ∧ t.outBuf = s.outBuf ∧
    t.irqLine = s.irqLine ∧ t.refused = s.refused ∧ t.refusals = s.refusals ∧ t.pending = s.pending ∧
    t.engineTick = s.engineTick

/-! ## The run loop -/

/-- `run(max_cycles)` as the loop of spec/45_engine.md R198 reads, from an accumulator and a session to the result and
the session after: no fuel. The two rules besides R198's own exits: a step that is refused (R195) ends the loop. -/
inductive RunLoop (maxCycles : Nat) : Nat → State → Nat → State → Prop
  | budget {acc : Nat} {s : State} : ¬ acc < maxCycles → RunLoop maxCycles acc s acc s
  | halted {acc : Nat} {s : State} : acc < maxCycles → s.pump.cpu.halted = true → s.pump.wakePossible = false →
      RunLoop maxCycles acc s acc (if s.pump.im0Pending then s.pump.refuse .im0Unmodelled else s.pump)
  | refusedStep {acc : Nat} {s : State} : acc < maxCycles → ¬ (s.pump.cpu.halted = true ∧ s.pump.wakePossible = false) →
      s.pump.core.1 = 0 → RunLoop maxCycles acc s acc s.pump.core.2
  | iterate {acc n : Nat} {s t : State} : acc < maxCycles → ¬ (s.pump.cpu.halted = true ∧ s.pump.wakePossible = false) →
      s.pump.core.1 ≠ 0 → RunLoop maxCycles (acc + s.pump.core.1) s.pump.core.2 n t → RunLoop maxCycles acc s n t

end Machine

end Sys2Proof
end

