-- ==== Sys2Proof/Certificates/Slice0/Obligations.lean ====
section
/-! DEFINITION. The statements for the provers. "Log n" is notes/assumptions/n.md; "Dn" is the spec's own decision n in spec/92_eei_decisions.md, on which the statements marked derived rest. -/

open Sys2Proof Sys2Proof.Machine

/-! ## Encoding and decoding (spec/30_encoding.md) -/

/-- Decoding an encoded well-formed instruction gives it back, with every operand at every value, under either setting
of `P_USART_DATA_PORT` (R70 to R72, R80; the key layout and the numbers are D2, D30, D31; the operands' record is log 13). -/
def Obligations.DecodeOfEncodeIsTheInstruction : Prop :=
  ∀ (dp : UsartDataPort) (i : Instr), i.WellFormed → decode dp (encode dp i).1 (encode dp i).2 = .ok i

/-- Keys written out from R72 and R80 decode to their rows (sanity). -/
def Obligations.WrittenOutKeysDecodeToTheirRows : Prop :=
  decode .port00 0b000010000000#12 Operands.zero = .ok .aciaRdStatus ∧
    decode .port00 0b000110000001#12 { Operands.zero with data := 0x41 } = .ok (.aciaWrData 0x41) ∧
    decode .port00 0b011000000000#12 Operands.zero = .ok .usartRdData ∧
    decode .port00 0b011100000001#12 { Operands.zero with data := 0x37 } = .ok (.usartWrCommand 0x37) ∧
    decode .port01 0b001100000000#12 { Operands.zero with data := 0x4E } = .ok (.usartWrMode 0x4E) ∧
    decode .port00 0b001010000001#12 Operands.zero = .ok (.idleRead .usart 0x81) ∧
    decode .port00 0b000100000000#12 { Operands.zero with data := 0x55 } = .ok (.idleWrite .acia 0x00 0x55) ∧
    decode .port00 0b100000000101#12 Operands.zero = .ok .bridgeEvaluate ∧
    decode .port00 0b100000001011#12 { Operands.zero with maxCycles := 20 } = .ok (.engRun 20)

/-- A key selects no row exactly when it is a format-H key with a reserved OP or a non-zero reserved field (R71, R85; D30, D31). -/
def Obligations.KeyIsRejectedExactlyWhenReserved : Prop :=
  ∀ (dp : UsartDataPort) (k : Key) (o : Operands),
    decode dp k o = .error .reservedHostOp ↔
      (k.getLsbD 11 = true ∧ (k.extractLsb' 5 6 ≠ 0#6 ∨ 0x10 < (k.extractLsb' 0 5).toNat))

/-- No port cycle forms a key with PH = 1 and V = 0, and what a port cycle forms decodes to a well-formed instruction (R70, R73; D30; log 18). -/
def Obligations.PortCyclesFormWellFormedOperations : Prop :=
  (∀ (c : Chip) (w : Bool) (addr : Word),
      ¬ ((c.portKey w addr).getLsbD 10 = true ∧ (c.portKey w addr).getLsbD 9 = false)) ∧
    (∀ (dp : UsartDataPort) (c : Chip) (addr : Word),
      ∃ i : Instr, decode dp (Request.key c (.portRead addr)) Operands.zero = .ok i ∧ i.WellFormed) ∧
    (∀ (dp : UsartDataPort) (c : Chip) (addr : Word) (d : Byte),
      ∃ i : Instr, decode dp (Request.key c (.portWrite addr d)) { Operands.zero with data := d } = .ok i ∧ i.WellFormed)

/-! ## The step -/

/-- When the next request's key decodes to an instruction, the step is that instruction's meaning in the session without
the request (R56, R70, R71; the request queue is log 10). -/
def Obligations.StepRunsTheDecodedInstruction : Prop :=
  ∀ (s : State) (r : Request) (rest : List Request) (i : Instr),
    s.pending = r :: rest → r.overlaps = false →
    decode s.params.usartDataPort (r.key s.chip) r.operands = .ok i →
    step s = exec i { s with pending := rest }

/-- What the step does with no request, with an overlapping host call (R61; D35; log 16) and with a reserved key (R85;
D31; log 17): nothing, or the `refused` mark alone. -/
def Obligations.StepWithoutAnInstructionOnlyMarks : Prop :=
  (∀ s : State, s.pending = [] → step s = .next s) ∧
    (∀ (s : State) (sel : BitVec 11) (o : Operands) (rest : List Request), s.pending = .host sel o true :: rest →
      step s = .next { s with
        pending := rest, refused := true, refusals := s.refusals ++ [.concurrentCall],
        result := .refused .concurrentCall }) ∧
    (∀ (s : State) (sel : BitVec 11) (o : Operands) (rest : List Request), s.pending = .host sel o false :: rest →
      decode s.params.usartDataPort (hostKey sel) o = .error .reservedHostOp →
      step s = .next { s with
        pending := rest, refused := true, refusals := s.refusals ++ [.reservedHostOp],
        result := .refused .reservedHostOp })

/-- A port cycle carried out through its decode key is the dispatch of R103 and R104: the two designs agree for every
address, phase, variant and data-port setting (D2, D30). -/
def Obligations.KeyDispatchAgreesWithThePortDispatch : Prop :=
  (∀ (s : State) (rest : List Request) (addr : Word),
      step { s with pending := .portRead addr :: rest } =
        .next { s with
          pending := rest, chip := (s.chip.readPort s.params addr).2,
          result := .ok (.byte (s.chip.readPort s.params addr).1) }) ∧
    (∀ (s : State) (rest : List Request) (addr : Word) (d : Byte),
      step { s with pending := .portWrite addr d :: rest } =
        .next { s with pending := rest, chip := s.chip.writePort s.params addr d, result := .ok .unit })

/-- Two port addresses with the same low byte are one port (R100; log 10). -/
def Obligations.HighAddressByteIsIgnored : Prop :=
  ∀ (s : State) (rest : List Request) (a b : Word), a.extractLsb' 0 8 = b.extractLsb' 0 8 →
    step { s with pending := .portRead a :: rest } = step { s with pending := .portRead b :: rest } ∧
      ∀ d : Byte, step { s with pending := .portWrite a d :: rest } = step { s with pending := .portWrite b d :: rest }

/-- The block raises no exception: every step of every session answers a next state (R230, R232; log 14). -/
def Obligations.EveryStepAnswersANextState : Prop := ∀ s : State, ∃ t : State, step s = .next t

/-! ## Whole-machine rules -/

/-- The invariant of Safety.lean is kept by every step: memory in canonical form, the enables as the control or command
register sets them (R24, R25, R29; D6, D7), the absent variant's fields fresh (R35), the mark as the refusals say (R232). -/
def Obligations.EveryStepKeepsTheInvariant : Prop := ∀ s t : State, s.Inv → step s = .next t → t.Inv

/-- The invariant holds of every new session, whatever its parameters and its initial memory (R9, R41, R42; `P_MEM_INIT`
is any image in canonical form, log 7), and of the state after reset. -/
def Obligations.NewSessionsMeetTheInvariant : Prop :=
  (∀ (p : Params) (mem : Memory), mem.wf = true → (State.create p mem).Inv) ∧ State.reset.Inv

/-- No step clears the `refused` mark or forgets a refusal (R38, R232; D22). -/
def Obligations.NoStepClearsTheRefusedMark : Prop :=
  ∀ s t : State, step s = .next t →
    (s.refused = true → t.refused = true) ∧ ∃ l : List RefusalCode, t.refusals = s.refusals ++ l

/-- No step changes the parameters (R43; log 1). -/
def Obligations.NoStepChangesTheParameters : Prop := ∀ s t : State, step s = .next t → t.params = s.params

/-- The variant changes only in a step that carries out ENG.CONFIGURE or CHIP.CONSTRUCT, and then to the variant its
identifier names (R20, R81; D15). -/
def Obligations.VariantChangesOnlyByConfigureOrConstruct : Prop :=
  ∀ s t : State, step s = .next t → t.chip.variant ≠ s.chip.variant →
    ∃ (o : Operands) (rest : List Request),
      (s.pending = .host 0x004#11 o false :: rest ∨ s.pending = .host 0x008#11 o false :: rest) ∧
        ((o.variantId = 0 ∧ t.chip.variant = .acia) ∨ (o.variantId = 1 ∧ t.chip.variant = .usart))

/-- The port cycles and the chip's host operations change only the chip: every byte of memory, the CPU and the rest of
the session are as before (R13, R106; the result is the model's own field, log 12). -/
def Obligations.ChipOperationsChangeOnlyTheChip : Prop :=
  ∀ (i : Instr) (s t : State), i.chipOnly = true → exec i s = .next t →
    t.cpu = s.cpu ∧ s.SameMemory t ∧ s.SameSession t

/-- Beside the operations that run the CPU or evaluate the bridge, only ENG.RESET writes the CPU and only
ENG.LOAD_PROGRAM writes memory (R37, R58; D18). -/
def Obligations.CpuAndMemoryAreWrittenOnlyByTheNamedOperations : Prop :=
  ∀ (i : Instr) (s t : State), i.runsCpu = false → exec i s = .next t →
    (i ≠ .engReset → t.cpu = s.cpu) ∧
      ((∀ (bytes : List Byte) (origin : Nat), i ≠ .engLoadProgram bytes origin) → s.SameMemory t)

/-- The interrupt enables and the USART phase are written only by the control, mode and command writes and by chip
construction, or by CPU instructions that make such writes (R24, R135; D6, D7). -/
def Obligations.EnablesAndPhaseAreWrittenOnlyByTheNamedOperations : Prop :=
  ∀ (i : Instr) (s t : State), i.writesEnablesOrPhase = false → exec i s = .next t →
    t.chip.rxIe = s.chip.rxIe ∧ t.chip.txIe = s.chip.txIe ∧ t.chip.phase = s.chip.phase

/-! ## Reset and session creation -/

/-- A new session holds the construction values of R41 and R42 (D13, D14), its status registers read 0x02 and 0x01, the
Z80 engine is at its reset state (PC, IM and the flip-flops; log 5), and `State.reset` is the session with nothing in
memory (log 7) and the default parameters, each written out: R9's defaults (log 9), and the model's choice for the two
that R9 leaves open, the mode-2 vector byte 0xFF (log 8) and the engine (log 2). -/
def Obligations.SessionCreationValues : Prop :=
  (∀ (p : Params) (mem : Memory),
      (State.create p mem).chip =
          { variant := p.initialVariant, rxData := 0x00, rxFull := false, txData := 0x00, txFull := false,
            rxIe := false, txIe := false, control := 0x00, mode := 0x00, command := 0x00, phase := .expectMode,
            overrunCount := 0 } ∧
        (State.create p mem).chip.aciaStatus = 0x02 ∧ (State.create p mem).chip.usartStatus = 0x01 ∧
        (State.create p mem).mem = mem ∧ (State.create p mem).totalCycles = 0 ∧
        (State.create p mem).hostFifo = [] ∧ (State.create p mem).outBuf = [] ∧
        (State.create p mem).irqLine = false ∧ (State.create p mem).refused = false ∧
        (p.engine = .vectorZ80 →
          (State.create p mem).cpu.pc = 0x0000 ∧ (State.create p mem).cpu.im = .im0 ∧
            (State.create p mem).cpu.iff1 = false ∧ (State.create p mem).cpu.iff2 = false)) ∧
    State.reset = State.create Params.default [] ∧
    State.reset.params =
      { initialVariant := .acia, usartDataPort := .port00, usartTxIe := .never, honourEiShadow := false,
        haltPc := .afterHalt, im2Vector := 0xFF, resetClearsHostBuffers := false, textEncoding := .utf8,
        engine := .vectorZ80 }

/-- ENG.RESET (R207, R260; D13, D26): the chip fresh with its variant kept, the cycle count 0, the line false, the
buffers cleared only under the parameter, memory and marks kept; the Z80 engine at PC 0x0000, IM 0, IFF1 = IFF2 = false
(its whole reset state is log 5), an external engine in any state (log 24). -/
def Obligations.EngineResetEffect : Prop :=
  ∀ s : State,
    (s.params.engine = .vectorZ80 →
      exec .engReset s = .next { s with
        cpu := Cpu.reset, chip := Chip.fresh s.chip.variant, totalCycles := 0, irqLine := false,
        hostFifo := if s.params.resetClearsHostBuffers then [] else s.hostFifo,
        outBuf := if s.params.resetClearsHostBuffers then [] else s.outBuf, result := .ok .unit }) ∧
    (s.params.engine = .external →
      ∃ (cpu : Cpu) (tick : Nat), exec .engReset s = .next { s with
        cpu := cpu, engineTick := tick, chip := Chip.fresh s.chip.variant, totalCycles := 0, irqLine := false,
        hostFifo := if s.params.resetClearsHostBuffers then [] else s.hostFifo,
        outBuf := if s.params.resetClearsHostBuffers then [] else s.outBuf, result := .ok .unit })

/-- After ENG.RESET the bridge delivers nothing, refuses nothing and drives no line, whatever the session was and
whatever its engine's reset leaves in the CPU (R261, R41): both interrupt enables are false. -/
def Obligations.NoInterruptRightAfterReset : Prop :=
  ∀ s : State, ∃ t u : State, exec .engReset s = .next t ∧ exec .bridgeEvaluate t = .next u ∧
    u.result = .ok (.evaluation 0 false) ∧ t.chip.rxIe = false ∧ t.chip.txIe = false ∧ t.requested = false ∧
    u.chip = t.chip ∧ u.cpu = t.cpu ∧ s.SameMemory u ∧ u.refused = s.refused ∧ u.refusals = s.refusals ∧
    u.irqLine = false

/-! ## The dispatcher and the two chips -/

/-- An access to a port the active variant does not claim reads 0xFF and writes nothing: BUS.IDLE_READ, BUS.IDLE_WRITE,
the step that a port cycle takes to them, and the four ports of the inactive variant (R101, R102, R105). -/
def Obligations.UnclaimedPortsAreIdle : Prop :=
  (∀ (v : Variant) (a : Byte) (s : State), exec (.idleRead v a) s = .next { s with result := .ok (.byte 0xFF) }) ∧
    (∀ (v : Variant) (a d : Byte) (s : State), exec (.idleWrite v a d) s = .next { s with result := .ok .unit }) ∧
    (∀ (s : State) (rest : List Request) (addr : Word), s.chip.variant.claims (addr.extractLsb' 0 8) = false →
      step { s with pending := .portRead addr :: rest } =
          .next { s with pending := rest, result := .ok (.byte 0xFF) } ∧
        ∀ d : Byte, step { s with pending := .portWrite addr d :: rest } =
          .next { s with pending := rest, result := .ok .unit }) ∧
    Variant.claims .usart 0x80 = false ∧ Variant.claims .usart 0x81 = false ∧
    Variant.claims .acia 0x00 = false ∧ Variant.claims .acia 0x01 = false

/-- ACIA.RD_STATUS (R110, R26): RDRF in bit 0, TDRE in bit 1, IRQ in bit 7 (D3), the other bits 0 (D5, log 21); nothing
else changes (D41). -/
def Obligations.AciaStatusRead : Prop :=
  ∀ s : State, ∃ b : Byte, exec .aciaRdStatus s = .next { s with result := .ok (.byte b) } ∧
    b.getLsbD 0 = s.chip.rxFull ∧ b.getLsbD 1 = !s.chip.txFull ∧ b.extractLsb' 2 5 = 0#5 ∧
    b.getLsbD 7 = ((s.chip.rxFull && s.chip.rxIe) || (!s.chip.txFull && s.chip.txIe))

/-- USART.RD_STATUS (R131, R31): TxRDY in bit 0, RxRDY in bit 1 (D4), the other bits 0 (D5, log 21); nothing else
changes, the phase included (D41). -/
def Obligations.UsartStatusRead : Prop :=
  ∀ s : State, ∃ b : Byte, exec .usartRdStatus s = .next { s with result := .ok (.byte b) } ∧
    b.getLsbD 0 = !s.chip.txFull ∧ b.getLsbD 1 = s.chip.rxFull ∧ b.extractLsb' 2 6 = 0#6

/-- ACIA.RD_DATA and USART.RD_DATA (R111, R130): the receive register's byte, and receive-ready cleared; nothing else
changes. With nothing waiting the byte is the retained one, the spec's decision D10 (log 20). -/
def Obligations.DataReadsReturnTheReceiveRegister : Prop :=
  ∀ s : State,
    exec .aciaRdData s =
        .next { s with chip := { s.chip with rxFull := false }, result := .ok (.byte s.chip.rxData) } ∧
      exec .usartRdData s =
        .next { s with chip := { s.chip with rxFull := false }, result := .ok (.byte s.chip.rxData) }

/-- ACIA.WR_DATA and USART.WR_DATA (R113, R132): the byte fills the transmit register, in either phase, and replaces one
still waiting (D12); nothing else changes. -/
def Obligations.DataWritesFillTheTransmitRegister : Prop :=
  ∀ (d : Byte) (s : State),
    exec (.aciaWrData d) s =
        .next { s with chip := { s.chip with txData := d, txFull := true }, result := .ok .unit } ∧
      exec (.usartWrData d) s =
        .next { s with chip := { s.chip with txData := d, txFull := true }, result := .ok .unit }

/-- ACIA.WR_CONTROL (R112, R25): the byte is stored whole, the enables are bit 7 and bits 6:5 = 01 (D6), and bit 0
clears both buffers (D11) and leaves the overrun count; without bit 0 the buffers are as before. -/
def Obligations.AciaControlWrite : Prop :=
  ∀ (d : Byte) (s : State),
    (d.getLsbD 0 = true →
      exec (.aciaWrControl d) s = .next { s with
        chip := { s.chip with
          control := d, rxIe := d.getLsbD 7, txIe := !d.getLsbD 6 && d.getLsbD 5,
          rxFull := false, rxData := 0x00, txFull := false, txData := 0x00 }
        result := .ok .unit }) ∧
    (d.getLsbD 0 = false →
      exec (.aciaWrControl d) s = .next { s with
        chip := { s.chip with control := d, rxIe := d.getLsbD 7, txIe := !d.getLsbD 6 && d.getLsbD 5 }
        result := .ok .unit })

/-- USART.WR_MODE (R133): the byte is stored whole and the phase becomes EXPECT_COMMAND; nothing else changes (D37). -/
def Obligations.UsartModeWrite : Prop :=
  ∀ (d : Byte) (s : State),
    exec (.usartWrMode d) s =
      .next { s with chip := { s.chip with mode := d, phase := .expectCommand }, result := .ok .unit }

/-- USART.WR_COMMAND (R134, R29): the byte is stored whole, RxE (bit 2) is the receive enable, TxEN (bit 0) the transmit
enable where `P_USART_TX_IE` = TXEN (D7), and IR (bit 6) returns the phase to EXPECT_MODE (D8) and does nothing else (D9). -/
def Obligations.UsartCommandWrite : Prop :=
  ∀ (d : Byte) (s : State),
    exec (.usartWrCommand d) s = .next { s with
      chip := { s.chip with
        command := d
        rxIe := d.getLsbD 2
        txIe := s.params.usartTxIe == .txEn && d.getLsbD 0
        phase := if d.getLsbD 6 then .expectMode else s.chip.phase }
      result := .ok .unit }

/-- The phase decides what a write to the command/status port means (R30): in EXPECT_MODE the byte is the mode and the
phase becomes EXPECT_COMMAND; in EXPECT_COMMAND it is the command, and the phase becomes EXPECT_MODE if its internal-reset
bit is set and stays otherwise (where that bit is, `usartInternalReset` says, and UsartCommandWrite states); in each the
other register is as before. After construction the phase is EXPECT_MODE, and these are its two values. -/
def Obligations.PhaseDecidesTheMeaningOfAPortWrite : Prop :=
  (∀ (s : State) (rest : List Request) (addr : Word) (d : Byte), s.chip.variant = .usart →
      addr.extractLsb' 0 8 = controlPort s.params.usartDataPort →
      ∃ t : State, step { s with pending := .portWrite addr d :: rest } = .next t ∧
        (s.chip.phase = .expectMode →
          t.chip.mode = d ∧ t.chip.command = s.chip.command ∧ t.chip.phase = .expectCommand) ∧
        (s.chip.phase = .expectCommand →
          t.chip.command = d ∧ t.chip.mode = s.chip.mode ∧
            (usartInternalReset d = true → t.chip.phase = .expectMode) ∧
            (usartInternalReset d = false → t.chip.phase = .expectCommand))) ∧
    (∀ v : Variant, (Chip.fresh v).phase = .expectMode) ∧
    ∀ ph : Phase, ph = .expectMode ∨ ph = .expectCommand

/-- The recovery sequence 0x00, 0x00, 0x00, 0x40 on the command/status port ends in EXPECT_MODE from either phase, with
both enables false and the receive register as before (R272, R135). The four port writes are four steps of the machine. -/
def Obligations.UsartRecoverySequenceEndsInExpectMode : Prop :=
  ∀ (s : State) (addr : Word), s.chip.variant = .usart →
    addr.extractLsb' 0 8 = controlPort s.params.usartDataPort →
    ∃ t : State,
      Sys2Proof.core.run 4 { s with
        pending := [.portWrite addr 0x00, .portWrite addr 0x00, .portWrite addr 0x00, .portWrite addr 0x40] } = .next t ∧
        t.chip.phase = .expectMode ∧ t.chip.command = 0x40 ∧ t.chip.rxIe = false ∧ t.chip.txIe = false ∧
        t.chip.rxFull = s.chip.rxFull ∧ t.chip.rxData = s.chip.rxData

/-! ## The chip's host side (spec/43_chip_interface.md) -/

/-- CHIP.PUSH_RX (R150): a byte offered to an empty register is stored; offered to a full one it is dropped and counted,
and the byte held is kept (D29). -/
def Obligations.PushRxStoresOrCountsTheDrop : Prop :=
  ∀ (b : Byte) (s : State),
    (s.chip.rxFull = false →
      exec (.chipPushRx b) s =
        .next { s with chip := { s.chip with rxData := b, rxFull := true }, result := .ok .unit }) ∧
    (s.chip.rxFull = true →
      exec (.chipPushRx b) s =
        .next { s with chip := { s.chip with overrunCount := s.chip.overrunCount + 1 }, result := .ok .unit })

/-- CHIP.TAKE_PENDING_TX (R151): the waiting byte and the register empty, or nothing; after it transmit-ready reads 1 in
either chip's status byte (ACIA bit 1 and USART bit 0, the spec's decisions D3 and D4), the request holds if the transmit
enable does, and a second call returns nothing. Its key is 0x801. -/
def Obligations.TakePendingTxEmptiesTheTransmitRegister : Prop :=
  ∀ s : State,
    (s.chip.txFull = true →
      exec .chipTakePendingTx s = .next { s with
        chip := { s.chip with txFull := false }, result := .ok (.optByte (some s.chip.txData)) }) ∧
    (s.chip.txFull = false → exec .chipTakePendingTx s = .next { s with result := .ok (.optByte none) }) ∧
    ∃ t u : State, exec .chipTakePendingTx s = .next t ∧ exec .chipTakePendingTx t = .next u ∧
      t.chip.aciaStatus.getLsbD 1 = true ∧ t.chip.usartStatus.getLsbD 0 = true ∧
      (s.chip.txIe = true → t.requested = true) ∧ u.result = .ok (.optByte none) ∧ u.chip = t.chip ∧
      ∀ (dp : UsartDataPort) (o : Operands), decode dp 0x801 o = .ok .chipTakePendingTx

/-- CHIP.HAS_PENDING_RX (R152): the occupancy of the receive register, false at construction; no state is written.
Its key is 0x802. -/
def Obligations.HasPendingRxReportsTheReceiveRegister : Prop :=
  (∀ s : State, exec .chipHasPendingRx s = .next { s with result := .ok (.flag s.chip.rxFull) }) ∧
    (∀ v : Variant, (Chip.fresh v).rxFull = false) ∧
    ∀ (dp : UsartDataPort) (o : Operands), decode dp 0x802 o = .ok .chipHasPendingRx

/-- CHIP.INTERRUPT_REQUESTED (R33): the predicate of R33, the same for both variants, computed from the current fields;
nothing is stored. -/
def Obligations.InterruptRequestIsThePredicateOfTheChip : Prop :=
  ∀ s : State,
    exec .chipInterruptRequested s = .next { s with
      result := .ok (.flag ((s.chip.rxFull && s.chip.rxIe) || ((!s.chip.txFull) && s.chip.txIe))) }

/-- The output signals of R40 say what the operations return (D1; log 31): `rx_pending` what CHIP.HAS_PENDING_RX returns,
`tx_valid` and `tx_byte` whether CHIP.TAKE_PENDING_TX returns a byte and which, `irq` what CHIP.INTERRUPT_REQUESTED returns. -/
def Obligations.SignalsSayWhatTheOperationsReturn : Prop :=
  ∀ s : State, ∃ t u v : State, exec .chipHasPendingRx s = .next t ∧ exec .chipTakePendingTx s = .next u ∧
    exec .chipInterruptRequested s = .next v ∧
    t.result = .ok (.flag s.chip.signals.rxPending) ∧
    u.result = .ok (.optByte (if s.chip.signals.txValid then some s.chip.signals.txByte else none)) ∧
    v.result = .ok (.flag s.chip.signals.irq)

/-- CHIP.CONSTRUCT (R154, R41): every chip field at its construction value (D13); an identifier that names no variant
raises ConfigurationError and changes nothing (R81, log 19). -/
def Obligations.ChipConstructionValues : Prop :=
  ∀ s : State,
    (∀ (id : Nat) (v : Variant), (id = 0 ∧ v = .acia) ∨ (id = 1 ∧ v = .usart) →
      exec (.chipConstruct id) s = .next { s with
        chip :=
          { variant := v, rxData := 0x00, rxFull := false, txData := 0x00, txFull := false, rxIe := false,
            txIe := false, control := 0x00, mode := 0x00, command := 0x00, phase := .expectMode, overrunCount := 0 }
        result := .ok .unit }) ∧
    (∀ id : Nat, 2 ≤ id →
      exec (.chipConstruct id) s = .next { s with result := .error (.configurationError id) })

/-! ## Memory and the interrupt bridge (spec/20_memory.md, spec/44_interrupt_bridge.md) -/

/-- A 16-bit store puts the low byte at the address and the high byte at the next one modulo 2^16, leaves every other
byte, and reads back (R50, R51, R52; D16, D17). -/
def Obligations.WordStoresAreLittleEndianAndWrap : Prop :=
  ∀ (m : Memory) (a v : Word), m.wf = true →
    (m.write16 a v).read8 a = v.extractLsb' 0 8 ∧ (m.write16 a v).read8 (a + 1) = v.extractLsb' 8 8 ∧
      (∀ b : Word, b ≠ a → b ≠ a + 1 → (m.write16 a v).read8 b = m.read8 b) ∧
      (m.write16 a v).read16 a = v ∧ (m.write16 a v).wf = true

/-- BRIDGE.EVALUATE, row by row (R170, R171; D18, D19, D21, D22): in mode 1 the injection or nothing, in mode 2 the
line, in mode 0 the refusal mark or nothing. The chip is untouched in every row. -/
def Obligations.BridgeDecoderTable : Prop :=
  ∀ s : State,
    (s.cpu.im = .im1 → s.cpu.iff1 = true → s.requested = true →
      (s.params.honourEiShadow = false ∨ s.cpu.lastWasEi = false) →
      exec .bridgeEvaluate s = .next { s with
        cpu := { s.cpu with pc := 0x0038, sp := s.cpu.sp - 2, iff1 := false, iff2 := false, halted := false }
        mem := s.mem.write16 (s.cpu.sp - 2) s.cpu.pc
        irqLine := false
        result := .ok (.evaluation 13 true) }) ∧
    (s.cpu.im = .im1 →
      (s.cpu.iff1 = false ∨ s.requested = false ∨ (s.params.honourEiShadow = true ∧ s.cpu.lastWasEi = true)) →
      exec .bridgeEvaluate s = .next { s with irqLine := false, result := .ok (.evaluation 0 false) }) ∧
    (s.cpu.im = .im2 →
      exec .bridgeEvaluate s = .next { s with irqLine := s.requested, result := .ok (.evaluation 0 false) }) ∧
    (s.cpu.im = .im0 → s.cpu.iff1 = true → s.requested = true →
      exec .bridgeEvaluate s = .next { s with
        irqLine := false, refused := true, refusals := s.refusals ++ [.im0Unmodelled],
        result := .ok (.evaluation 0 false) }) ∧
    (s.cpu.im = .im0 → (s.cpu.iff1 = false ∨ s.requested = false) →
      exec .bridgeEvaluate s = .next { s with irqLine := false, result := .ok (.evaluation 0 false) })

/-- The injection byte by byte (R172, R52, R51; D16, D17, D18): the two bytes at S-2 and S-1 hold P, low byte first, a
16-bit read at the new SP returns P, and every other byte, every general register, the mode and the chip are as before. -/
def Obligations.InjectionPushesTheReturnAddress : Prop :=
  ∀ s : State, s.mem.wf = true → s.cpu.im = .im1 → s.cpu.iff1 = true → s.requested = true →
    (s.params.honourEiShadow = false ∨ s.cpu.lastWasEi = false) →
    ∃ t : State, exec .bridgeEvaluate s = .next t ∧
      t.mem.read8 (s.cpu.sp - 2) = s.cpu.pc.extractLsb' 0 8 ∧ t.mem.read8 (s.cpu.sp - 1) = s.cpu.pc.extractLsb' 8 8 ∧
      (∀ a : Word, a ≠ s.cpu.sp - 2 → a ≠ s.cpu.sp - 1 → t.mem.read8 a = s.mem.read8 a) ∧
      t.mem.read16 t.cpu.sp = s.cpu.pc ∧ t.cpu.regs = s.cpu.regs ∧ t.cpu.im = s.cpu.im ∧ t.chip = s.chip

/-- The §8 property (R180, R172, R174, R196): in mode 1 with interrupts enabled and a request pending, or made by the
byte that this step's pump moves, STEP_ONE takes the interrupt and nothing else: PC = 0x0038, SP = S-2, P on the stack,
interrupts disabled, 13 T-states, and no CPU instruction runs (the engine's counter stands; log 3). -/
def Obligations.StepOneTakesThePendingInterrupt : Prop :=
  ∀ s : State, s.mem.wf = true → s.cpu.im = .im1 → s.cpu.iff1 = true →
    (s.params.honourEiShadow = false ∨ s.cpu.lastWasEi = false) →
    (s.requested = true ∨ (s.chip.rxFull = false ∧ s.chip.rxIe = true ∧ s.hostFifo ≠ [])) →
    ∃ t : State, exec .engStepOne s = .next t ∧ t.result = .ok (.natural 13) ∧
      t.cpu = { s.cpu with pc := 0x0038, sp := s.cpu.sp - 2, iff1 := false, iff2 := false, halted := false } ∧
      t.mem.read8 (s.cpu.sp - 2) = s.cpu.pc.extractLsb' 0 8 ∧ t.mem.read8 (s.cpu.sp - 1) = s.cpu.pc.extractLsb' 8 8 ∧
      (∀ a : Word, a ≠ s.cpu.sp - 2 → a ≠ s.cpu.sp - 1 → t.mem.read8 a = s.mem.read8 a) ∧
      t.totalCycles = s.totalCycles + 13 ∧ t.irqLine = false ∧ t.refused = s.refused ∧ t.engineTick = s.engineTick

/-- Mode 2 with the Z80 engine (R175, R177, R236; D21; the acceptance's order and its 19 T-states are log 29): STEP_ONE
with a pending request drives the line, and the engine pushes PC, loads PC from the word at {I, `P_IM2_VECTOR`} of the
memory with the push in it, clears both flip-flops and ends the halt. -/
def Obligations.ModeTwoStepVectorsThroughTheTable : Prop :=
  ∀ s : State, s.params.engine = .vectorZ80 → s.mem.wf = true → s.cpu.im = .im2 → s.cpu.iff1 = true →
    s.cpu.lastWasEi = false → s.requested = true →
    ∃ t : State, exec .engStepOne s = .next t ∧ t.result = .ok (.natural 19) ∧ t.irqLine = true ∧
      t.cpu.pc = (s.mem.write16 (s.cpu.sp - 2) s.cpu.pc).read16 (Word.ofBytes s.cpu.regs.i s.params.im2Vector) ∧
      t.cpu.sp = s.cpu.sp - 2 ∧ t.cpu.im = .im2 ∧ t.cpu.iff1 = false ∧ t.cpu.iff2 = false ∧ t.cpu.halted = false ∧
      t.mem.read16 t.cpu.sp = s.cpu.pc ∧
      (∀ a : Word, a ≠ s.cpu.sp - 2 → a ≠ s.cpu.sp - 1 → t.mem.read8 a = s.mem.read8 a) ∧
      t.totalCycles = s.totalCycles + 19 ∧ t.refused = s.refused

/-! ## The scheduling step (spec/45_engine.md) -/

/-- ENG.PUMP (R190): with the receive register empty and a byte queued, the oldest byte moves into it; otherwise nothing
happens. At most one byte moves, and the overrun count never changes. Its key is 0x806. -/
def Obligations.PumpMovesOneHostByte : Prop :=
  ∀ s : State,
    (∀ (b : Byte) (rest : List Byte), s.chip.rxFull = false → s.hostFifo = b :: rest →
      exec .engPump s = .next { s with
        chip := { s.chip with rxData := b, rxFull := true }, hostFifo := rest, result := .ok .unit }) ∧
    (s.chip.rxFull = true ∨ s.hostFifo = [] → exec .engPump s = .next { s with result := .ok .unit }) ∧
    ∀ (dp : UsartDataPort) (o : Operands), decode dp 0x806 o = .ok .engPump

/-- ENG.DRAIN_TX (R191): a waiting byte moves to the end of the output buffer; otherwise nothing happens. Its key
is 0x807. -/
def Obligations.DrainMovesTheTransmittedByte : Prop :=
  ∀ s : State,
    (s.chip.txFull = true →
      exec .engDrainTx s = .next { s with
        chip := { s.chip with txFull := false }, outBuf := s.outBuf ++ [s.chip.txData], result := .ok .unit }) ∧
    (s.chip.txFull = false → exec .engDrainTx s = .next { s with result := .ok .unit }) ∧
    ∀ (dp : UsartDataPort) (o : Operands), decode dp 0x807 o = .ok .engDrainTx

/-- ENG.STEP_ONE, for every session and every engine (R193, R194, R195, R199, R200; D23, D25, D38): it answers, returns
the T-states it adds to `total_cycles`, at least 1 unless the step is refused (log 15), takes at most one byte from the
FIFO, appends at most one to the output, leaves the transmit register empty (R114), and leaves parameters, variant and
requests. -/
def Obligations.StepOneCompletes : Prop :=
  ∀ s : State, ∃ (t : State) (n : Nat), exec .engStepOne s = .next t ∧ t.result = .ok (.natural n) ∧
    t.totalCycles = s.totalCycles + n ∧ (0 < n ∨ t.refused = true) ∧ t.chip.txFull = false ∧
    (t.outBuf = s.outBuf ∨ ∃ b : Byte, t.outBuf = s.outBuf ++ [b]) ∧
    (t.hostFifo = s.hostFifo ∨ ∃ b : Byte, s.hostFifo = b :: t.hostFifo) ∧
    t.params = s.params ∧ t.chip.variant = s.chip.variant ∧ t.pending = s.pending

/-- ENG.STEP_ONE where the bridge does not inject, in its four parts (R193, R194): the pump, the bridge's own effect
(`u`), one engine step (`n` T-states, to `v`), the drain and the account (D23, D39). -/
def Obligations.StepOneRunsOneCpuStep : Prop :=
  ∀ (s u v : State) (n : Nat),
    exec .bridgeEvaluate s.pump = .next { u with result := .ok (.evaluation 0 false) } → u.result = s.result →
    u.engineProgram.exec { u with engineTick := u.engineTick + 1 } = (n, v) → n ≠ 0 →
    exec .engStepOne s = .next { v.drainTx with
      totalCycles := s.totalCycles + n, result := .ok (.natural n) }

/-- ENG.RUN, for every session, budget and engine (R198, R194; D23, D24): it answers and returns the T-states it adds to
`total_cycles`; it ends with the budget reached, or halted with nothing able to wake the CPU, or at a refusal (log 15);
the output only grows at its end and the FIFO only shrinks at its head. -/
def Obligations.RunCompletes : Prop :=
  ∀ (m : Nat) (s : State), ∃ (t : State) (n : Nat), exec (.engRun m) s = .next t ∧ t.result = .ok (.natural n) ∧
    t.totalCycles = s.totalCycles + n ∧
    (m ≤ n ∨ (t.cpu.halted = true ∧ t.wakePossible = false) ∨ t.refused = true) ∧
    (∃ l : List Byte, t.outBuf = s.outBuf ++ l) ∧ (∃ l : List Byte, s.hostFifo = l ++ t.hostFifo) ∧
    t.params = s.params ∧ t.chip.variant = s.chip.variant ∧ t.pending = s.pending

/-- `run(max_cycles)` is the loop of R198: the function that the model evaluates, which counts `max_cycles` turns down,
has exactly the outcomes of the loop without such a count (D23, D24, D38; log 15). -/
def Obligations.RunFollowsItsLoop : Prop :=
  ∀ (m n : Nat) (s t : State), s.run m = (n, t) ↔ RunLoop m 0 s n t

/-- `run(0)` returns 0 and changes nothing, not even the FIFO (R198; D23). -/
def Obligations.RunOfZeroChangesNothing : Prop :=
  ∀ s : State, exec (.engRun 0) s = .next { s with result := .ok (.natural 0) }

/-- A CPU halted with no wake source stays halted: `run` returns 0 after one pump, with the refusal mark in mode 0 where
a request is enabled (R198, R197, R273, R176; D22, D23, D24). -/
def Obligations.HaltedRunWithoutWakeReturnsAtOnce : Prop :=
  ∀ (m : Nat) (s : State), 0 < m → s.cpu.halted = true →
    ((s.cpu.iff1 = false ∨ s.pump.requested = false) →
      exec (.engRun m) s = .next { s.pump with result := .ok (.natural 0) }) ∧
    (s.cpu.im = .im0 → s.cpu.iff1 = true → s.pump.requested = true →
      exec (.engRun m) s = .next { s.pump with
        refused := true, refusals := s.refusals ++ [.im0Unmodelled], result := .ok (.natural 0) })

/-- A CPU halted in mode 1 with interrupts enabled wakes in `run` at a pending request: a budget of 1 to 13 takes exactly
the injection, the halt ends, and the pushed return address is the PC held while halted (R173, R197, R198, R244; D20, D24). -/
def Obligations.HaltedRunWakesOnARequest : Prop :=
  ∀ (m : Nat) (s : State), 0 < m → m ≤ 13 → s.mem.wf = true → s.cpu.halted = true → s.cpu.im = .im1 →
    s.cpu.iff1 = true → (s.params.honourEiShadow = false ∨ s.cpu.lastWasEi = false) → s.requested = true →
    ∃ t : State, exec (.engRun m) s = .next t ∧ t.result = .ok (.natural 13) ∧ t.cpu.halted = false ∧
      t.cpu.pc = 0x0038 ∧ t.cpu.sp = s.cpu.sp - 2 ∧ t.cpu.iff1 = false ∧ t.mem.read16 t.cpu.sp = s.cpu.pc

/-- Between operations of the engine the transmit register stays empty: a run from a session with it empty leaves it
empty, so TDRE and TxRDY read 1 at every step boundary (R114, R136, R269). -/
def Obligations.RunKeepsTheTransmitRegisterEmpty : Prop :=
  ∀ (m : Nat) (s t : State), s.chip.txFull = false → exec (.engRun m) s = .next t →
    t.chip.txFull = false ∧ t.chip.aciaStatus.getLsbD 1 = true ∧ t.chip.usartStatus.getLsbD 0 = true

/-- A byte that the Z80 engine's OUT (n),A writes to the data port is in the output buffer at the end of that very step,
on either chip, with or without a mode or command byte (R113, R132, R191, R200; R280's count of 11; the engine is log 4). -/
def Obligations.OutToTheDataPortReachesTheOutput : Prop :=
  ∀ s : State, s.params.engine = .vectorZ80 → s.cpu.halted = false → s.cpu.iff1 = false → s.chip.txFull = false →
    s.mem.read8 s.cpu.pc = 0xD3 →
    ((s.chip.variant = .acia ∧ s.mem.read8 (s.cpu.pc + 1) = 0x81) ∨
      (s.chip.variant = .usart ∧ s.mem.read8 (s.cpu.pc + 1) = dataPort s.params.usartDataPort)) →
    ∃ t : State, exec .engStepOne s = .next t ∧ t.outBuf = s.outBuf ++ [s.cpu.regs.a] ∧
      t.chip.txFull = false ∧ t.cpu.pc = s.cpu.pc + 2 ∧ t.totalCycles = s.totalCycles + 11 ∧
      t.result = .ok (.natural 11) ∧ s.SameMemory t

/-- A queued host byte reaches A in the step whose IN A,(n) reads the data port: the pump moves it, the read clears
receive-ready, and the byte after it waits in the FIFO (R190, R111, R130, R268; the engine is log 4). -/
def Obligations.QueuedHostByteReachesTheAccumulator : Prop :=
  ∀ (s : State) (b : Byte) (rest : List Byte), s.params.engine = .vectorZ80 → s.cpu.halted = false →
    s.cpu.iff1 = false → s.chip.rxFull = false → s.hostFifo = b :: rest → s.mem.read8 s.cpu.pc = 0xDB →
    ((s.chip.variant = .acia ∧ s.mem.read8 (s.cpu.pc + 1) = 0x81) ∨
      (s.chip.variant = .usart ∧ s.mem.read8 (s.cpu.pc + 1) = dataPort s.params.usartDataPort)) →
    ∃ t : State, exec .engStepOne s = .next t ∧ t.cpu.regs.a = b ∧ t.hostFifo = rest ∧ t.chip.rxFull = false ∧
      t.chip.overrunCount = s.chip.overrunCount ∧ t.cpu.pc = s.cpu.pc + 2 ∧ t.totalCycles = s.totalCycles + 11

/-! ## The host operations -/

/-- ENG.CONFIGURE (R205, R260; D13, D15): the chip fresh with the named variant and the line false, everything else kept;
an unsupported identifier is an error that changes nothing. -/
def Obligations.ConfigureRecreatesTheChip : Prop :=
  ∀ s : State,
    (∀ (id : Nat) (v : Variant), (id = 0 ∧ v = .acia) ∨ (id = 1 ∧ v = .usart) →
      exec (.engConfigure id) s = .next { s with chip := Chip.fresh v, irqLine := false, result := .ok .unit }) ∧
    (∀ id : Nat, 2 ≤ id →
      exec (.engConfigure id) s = .next { s with result := .error (.configurationError id) })

/-- ENG.LOAD_PROGRAM (R206; D33): of the bytes, as many as the address space from the origin holds are copied in order,
every other byte is as before, nothing else changes, and truncation is a warning with the number copied. -/
def Obligations.LoadProgramCopiesAndTruncates : Prop :=
  ∀ (bytes : List Byte) (origin n : Nat) (s : State), s.mem.wf = true →
    n = min bytes.length (if origin ≤ 0xFFFF then 0x10000 - origin else 0) →
    ∃ mem : Memory,
      exec (.engLoadProgram bytes origin) s = .next { s with
        mem := mem
        result := if n < bytes.length then .okWithWarning (.natural n) (.loadError n) else .ok (.natural n) } ∧
      (∀ i : Nat, i < n → mem.read (origin + i) = bytes.getD i 0x00) ∧
      (∀ a : Word, a.toNat < origin ∨ origin + n ≤ a.toNat → mem.read8 a = s.mem.read8 a)

/-- ENG.PUSH_INPUT_BYTE (R208; D43): the byte joins the end of the FIFO and nothing else changes. -/
def Obligations.PushInputByteQueuesTheByte : Prop :=
  ∀ (b : Byte) (s : State),
    exec (.engPushInputByte b) s = .next { s with hostFifo := s.hostFifo ++ [b], result := .ok .unit }

/-- ENG.PUSH_INPUT_STRING (R209; D27; log 25): the text's UTF-8 bytes, as Lean's own encoder gives them character by
character, join the end of the FIFO, none left out, and nothing else changes. -/
def Obligations.PushInputStringQueuesTheUtf8Bytes : Prop :=
  ∀ (text : List Char) (s : State),
    exec (.engPushInputString text) s = .next { s with
      hostFifo := s.hostFifo ++ (text.flatMap String.utf8EncodeChar).map UInt8.toBitVec, result := .ok .unit }

/-- ENG.DRAIN_OUTPUT (R210): the buffer is returned and cleared; with no transmit activity between, a second call returns
the empty list. Its key is 0x80F. -/
def Obligations.DrainOutputReturnsAndClears : Prop :=
  ∀ s : State,
    exec .engDrainOutput s = .next { s with outBuf := [], result := .ok (.bytes s.outBuf) } ∧
      exec .engDrainOutput { s with outBuf := [], result := .ok (.bytes s.outBuf) } =
        .next { s with outBuf := [], result := .ok (.bytes []) } ∧
      ∀ (dp : UsartDataPort) (o : Operands), decode dp 0x80F o = .ok .engDrainOutput

/-- ENG.QUERY_STATE (R212; D29): the snapshot, and no side effect. -/
def Obligations.QueryStateOnlyReports : Prop :=
  ∀ s : State, exec .engQueryState s = .next { s with
    result := .ok (.snapshot {
      pc := s.cpu.pc, sp := s.cpu.sp, registers := s.cpu.regs, flags := s.cpu.regs.f, im := s.cpu.im,
      halted := s.cpu.halted, totalCycles := s.totalCycles, iff1 := s.cpu.iff1, iff2 := s.cpu.iff2, chip := s.chip,
      hostFifoLen := s.hostFifo.length, refused := s.refused }) }
end

