-- ==== Sys2Proof/Laws/State.lean ====
section
/-! SUPPORT. The small lemmas of the state: one per field per update, true by rfl. -/

namespace Sys2Proof.Machine

/-! ## answer -/

@[simp] theorem State.answer_params (s : State) (r : Result) : (s.answer r).params = s.params := rfl
@[simp] theorem State.answer_chip (s : State) (r : Result) : (s.answer r).chip = s.chip := rfl
@[simp] theorem State.answer_cpu (s : State) (r : Result) : (s.answer r).cpu = s.cpu := rfl
@[simp] theorem State.answer_mem (s : State) (r : Result) : (s.answer r).mem = s.mem := rfl
@[simp] theorem State.answer_totalCycles (s : State) (r : Result) : (s.answer r).totalCycles = s.totalCycles := rfl
@[simp] theorem State.answer_hostFifo (s : State) (r : Result) : (s.answer r).hostFifo = s.hostFifo := rfl
@[simp] theorem State.answer_outBuf (s : State) (r : Result) : (s.answer r).outBuf = s.outBuf := rfl
@[simp] theorem State.answer_irqLine (s : State) (r : Result) : (s.answer r).irqLine = s.irqLine := rfl
@[simp] theorem State.answer_refused (s : State) (r : Result) : (s.answer r).refused = s.refused := rfl
@[simp] theorem State.answer_refusals (s : State) (r : Result) : (s.answer r).refusals = s.refusals := rfl
@[simp] theorem State.answer_result (s : State) (r : Result) : (s.answer r).result = r := rfl
@[simp] theorem State.answer_pending (s : State) (r : Result) : (s.answer r).pending = s.pending := rfl
@[simp] theorem State.answer_engineTick (s : State) (r : Result) : (s.answer r).engineTick = s.engineTick := rfl

/-! ## refuse -/

@[simp] theorem State.refuse_params (s : State) (c : RefusalCode) : (s.refuse c).params = s.params := rfl
@[simp] theorem State.refuse_chip (s : State) (c : RefusalCode) : (s.refuse c).chip = s.chip := rfl
@[simp] theorem State.refuse_cpu (s : State) (c : RefusalCode) : (s.refuse c).cpu = s.cpu := rfl
@[simp] theorem State.refuse_mem (s : State) (c : RefusalCode) : (s.refuse c).mem = s.mem := rfl
@[simp] theorem State.refuse_totalCycles (s : State) (c : RefusalCode) : (s.refuse c).totalCycles = s.totalCycles := rfl
@[simp] theorem State.refuse_hostFifo (s : State) (c : RefusalCode) : (s.refuse c).hostFifo = s.hostFifo := rfl
@[simp] theorem State.refuse_outBuf (s : State) (c : RefusalCode) : (s.refuse c).outBuf = s.outBuf := rfl
@[simp] theorem State.refuse_irqLine (s : State) (c : RefusalCode) : (s.refuse c).irqLine = s.irqLine := rfl
@[simp] theorem State.refuse_refused (s : State) (c : RefusalCode) : (s.refuse c).refused = true := rfl
@[simp] theorem State.refuse_refusals (s : State) (c : RefusalCode) : (s.refuse c).refusals = s.refusals ++ [c] := rfl
@[simp] theorem State.refuse_result (s : State) (c : RefusalCode) : (s.refuse c).result = s.result := rfl
@[simp] theorem State.refuse_pending (s : State) (c : RefusalCode) : (s.refuse c).pending = s.pending := rfl
@[simp] theorem State.refuse_engineTick (s : State) (c : RefusalCode) : (s.refuse c).engineTick = s.engineTick := rfl

/-! ## injectRst38 -/

@[simp] theorem State.injectRst38_params (s : State) :
    s.injectRst38.params = s.params := rfl
@[simp] theorem State.injectRst38_chip (s : State) :
    s.injectRst38.chip = s.chip := rfl
@[simp] theorem State.injectRst38_cpu (s : State) :
    s.injectRst38.cpu = { s.cpu with pc := 0x0038, sp := s.cpu.sp - 2, iff1 := false, iff2 := false, halted := false } := rfl
@[simp] theorem State.injectRst38_mem (s : State) :
    s.injectRst38.mem = s.mem.write16 (s.cpu.sp - 2) s.cpu.pc := rfl
@[simp] theorem State.injectRst38_totalCycles (s : State) :
    s.injectRst38.totalCycles = s.totalCycles := rfl
@[simp] theorem State.injectRst38_hostFifo (s : State) :
    s.injectRst38.hostFifo = s.hostFifo := rfl
@[simp] theorem State.injectRst38_outBuf (s : State) :
    s.injectRst38.outBuf = s.outBuf := rfl
@[simp] theorem State.injectRst38_irqLine (s : State) :
    s.injectRst38.irqLine = s.irqLine := rfl
@[simp] theorem State.injectRst38_refused (s : State) :
    s.injectRst38.refused = s.refused := rfl
@[simp] theorem State.injectRst38_refusals (s : State) :
    s.injectRst38.refusals = s.refusals := rfl
@[simp] theorem State.injectRst38_result (s : State) :
    s.injectRst38.result = s.result := rfl
@[simp] theorem State.injectRst38_pending (s : State) :
    s.injectRst38.pending = s.pending := rfl
@[simp] theorem State.injectRst38_engineTick (s : State) :
    s.injectRst38.engineTick = s.engineTick := rfl

/-! ## refuseRequest -/

@[simp] theorem State.refuseRequest_params (s : State) (c : RefusalCode) :
    (s.refuseRequest c).params = s.params := rfl
@[simp] theorem State.refuseRequest_chip (s : State) (c : RefusalCode) :
    (s.refuseRequest c).chip = s.chip := rfl
@[simp] theorem State.refuseRequest_cpu (s : State) (c : RefusalCode) :
    (s.refuseRequest c).cpu = s.cpu := rfl
@[simp] theorem State.refuseRequest_mem (s : State) (c : RefusalCode) :
    (s.refuseRequest c).mem = s.mem := rfl
@[simp] theorem State.refuseRequest_totalCycles (s : State) (c : RefusalCode) :
    (s.refuseRequest c).totalCycles = s.totalCycles := rfl
@[simp] theorem State.refuseRequest_hostFifo (s : State) (c : RefusalCode) :
    (s.refuseRequest c).hostFifo = s.hostFifo := rfl
@[simp] theorem State.refuseRequest_outBuf (s : State) (c : RefusalCode) :
    (s.refuseRequest c).outBuf = s.outBuf := rfl
@[simp] theorem State.refuseRequest_irqLine (s : State) (c : RefusalCode) :
    (s.refuseRequest c).irqLine = s.irqLine := rfl
@[simp] theorem State.refuseRequest_refused (s : State) (c : RefusalCode) :
    (s.refuseRequest c).refused = true := rfl
@[simp] theorem State.refuseRequest_refusals (s : State) (c : RefusalCode) :
    (s.refuseRequest c).refusals = s.refusals ++ [c] := rfl
@[simp] theorem State.refuseRequest_result (s : State) (c : RefusalCode) :
    (s.refuseRequest c).result = .refused c := rfl
@[simp] theorem State.refuseRequest_pending (s : State) (c : RefusalCode) :
    (s.refuseRequest c).pending = s.pending := rfl
@[simp] theorem State.refuseRequest_engineTick (s : State) (c : RefusalCode) :
    (s.refuseRequest c).engineTick = s.engineTick := rfl

/-! ## the chip's updates -/

@[simp] theorem Chip.readData_snd_variant (c : Chip) :
    (c.readData.2).variant = c.variant := rfl
@[simp] theorem Chip.readData_snd_rxData (c : Chip) :
    (c.readData.2).rxData = c.rxData := rfl
@[simp] theorem Chip.readData_snd_rxFull (c : Chip) :
    (c.readData.2).rxFull = false := rfl
@[simp] theorem Chip.readData_snd_txData (c : Chip) :
    (c.readData.2).txData = c.txData := rfl
@[simp] theorem Chip.readData_snd_txFull (c : Chip) :
    (c.readData.2).txFull = c.txFull := rfl
@[simp] theorem Chip.readData_snd_rxIe (c : Chip) :
    (c.readData.2).rxIe = c.rxIe := rfl
@[simp] theorem Chip.readData_snd_txIe (c : Chip) :
    (c.readData.2).txIe = c.txIe := rfl
@[simp] theorem Chip.readData_snd_control (c : Chip) :
    (c.readData.2).control = c.control := rfl
@[simp] theorem Chip.readData_snd_mode (c : Chip) :
    (c.readData.2).mode = c.mode := rfl
@[simp] theorem Chip.readData_snd_command (c : Chip) :
    (c.readData.2).command = c.command := rfl
@[simp] theorem Chip.readData_snd_phase (c : Chip) :
    (c.readData.2).phase = c.phase := rfl
@[simp] theorem Chip.readData_snd_overrunCount (c : Chip) :
    (c.readData.2).overrunCount = c.overrunCount := rfl
@[simp] theorem Chip.readData_fst (c : Chip) : c.readData.1 = c.rxData := rfl
@[simp] theorem Chip.writeData_variant (c : Chip) (d : Byte) :
    (c.writeData d).variant = c.variant := rfl
@[simp] theorem Chip.writeData_rxData (c : Chip) (d : Byte) :
    (c.writeData d).rxData = c.rxData := rfl
@[simp] theorem Chip.writeData_rxFull (c : Chip) (d : Byte) :
    (c.writeData d).rxFull = c.rxFull := rfl
@[simp] theorem Chip.writeData_txData (c : Chip) (d : Byte) :
    (c.writeData d).txData = d := rfl
@[simp] theorem Chip.writeData_txFull (c : Chip) (d : Byte) :
    (c.writeData d).txFull = true := rfl
@[simp] theorem Chip.writeData_rxIe (c : Chip) (d : Byte) :
    (c.writeData d).rxIe = c.rxIe := rfl
@[simp] theorem Chip.writeData_txIe (c : Chip) (d : Byte) :
    (c.writeData d).txIe = c.txIe := rfl
@[simp] theorem Chip.writeData_control (c : Chip) (d : Byte) :
    (c.writeData d).control = c.control := rfl
@[simp] theorem Chip.writeData_mode (c : Chip) (d : Byte) :
    (c.writeData d).mode = c.mode := rfl
@[simp] theorem Chip.writeData_command (c : Chip) (d : Byte) :
    (c.writeData d).command = c.command := rfl
@[simp] theorem Chip.writeData_phase (c : Chip) (d : Byte) :
    (c.writeData d).phase = c.phase := rfl
@[simp] theorem Chip.writeData_overrunCount (c : Chip) (d : Byte) :
    (c.writeData d).overrunCount = c.overrunCount := rfl
@[simp] theorem Chip.softReset_variant (c : Chip) :
    (c.softReset).variant = c.variant := rfl
@[simp] theorem Chip.softReset_rxData (c : Chip) :
    (c.softReset).rxData = 0x00 := rfl
@[simp] theorem Chip.softReset_rxFull (c : Chip) :
    (c.softReset).rxFull = false := rfl
@[simp] theorem Chip.softReset_txData (c : Chip) :
    (c.softReset).txData = 0x00 := rfl
@[simp] theorem Chip.softReset_txFull (c : Chip) :
    (c.softReset).txFull = false := rfl
@[simp] theorem Chip.softReset_rxIe (c : Chip) :
    (c.softReset).rxIe = c.rxIe := rfl
@[simp] theorem Chip.softReset_txIe (c : Chip) :
    (c.softReset).txIe = c.txIe := rfl
@[simp] theorem Chip.softReset_control (c : Chip) :
    (c.softReset).control = c.control := rfl
@[simp] theorem Chip.softReset_mode (c : Chip) :
    (c.softReset).mode = c.mode := rfl
@[simp] theorem Chip.softReset_command (c : Chip) :
    (c.softReset).command = c.command := rfl
@[simp] theorem Chip.softReset_phase (c : Chip) :
    (c.softReset).phase = c.phase := rfl
@[simp] theorem Chip.softReset_overrunCount (c : Chip) :
    (c.softReset).overrunCount = c.overrunCount := rfl
@[simp] theorem Chip.writeMode_variant (c : Chip) (d : Byte) :
    (c.writeMode d).variant = c.variant := rfl
@[simp] theorem Chip.writeMode_rxData (c : Chip) (d : Byte) :
    (c.writeMode d).rxData = c.rxData := rfl
@[simp] theorem Chip.writeMode_rxFull (c : Chip) (d : Byte) :
    (c.writeMode d).rxFull = c.rxFull := rfl
@[simp] theorem Chip.writeMode_txData (c : Chip) (d : Byte) :
    (c.writeMode d).txData = c.txData := rfl
@[simp] theorem Chip.writeMode_txFull (c : Chip) (d : Byte) :
    (c.writeMode d).txFull = c.txFull := rfl
@[simp] theorem Chip.writeMode_rxIe (c : Chip) (d : Byte) :
    (c.writeMode d).rxIe = c.rxIe := rfl
@[simp] theorem Chip.writeMode_txIe (c : Chip) (d : Byte) :
    (c.writeMode d).txIe = c.txIe := rfl
@[simp] theorem Chip.writeMode_control (c : Chip) (d : Byte) :
    (c.writeMode d).control = c.control := rfl
@[simp] theorem Chip.writeMode_mode (c : Chip) (d : Byte) :
    (c.writeMode d).mode = d := rfl
@[simp] theorem Chip.writeMode_command (c : Chip) (d : Byte) :
    (c.writeMode d).command = c.command := rfl
@[simp] theorem Chip.writeMode_phase (c : Chip) (d : Byte) :
    (c.writeMode d).phase = .expectCommand := rfl
@[simp] theorem Chip.writeMode_overrunCount (c : Chip) (d : Byte) :
    (c.writeMode d).overrunCount = c.overrunCount := rfl
@[simp] theorem Chip.writeCommand_variant (p : Params) (c : Chip) (d : Byte) :
    (Chip.writeCommand p c d).variant = c.variant := rfl
@[simp] theorem Chip.writeCommand_rxData (p : Params) (c : Chip) (d : Byte) :
    (Chip.writeCommand p c d).rxData = c.rxData := rfl
@[simp] theorem Chip.writeCommand_rxFull (p : Params) (c : Chip) (d : Byte) :
    (Chip.writeCommand p c d).rxFull = c.rxFull := rfl
@[simp] theorem Chip.writeCommand_txData (p : Params) (c : Chip) (d : Byte) :
    (Chip.writeCommand p c d).txData = c.txData := rfl
@[simp] theorem Chip.writeCommand_txFull (p : Params) (c : Chip) (d : Byte) :
    (Chip.writeCommand p c d).txFull = c.txFull := rfl
@[simp] theorem Chip.writeCommand_rxIe (p : Params) (c : Chip) (d : Byte) :
    (Chip.writeCommand p c d).rxIe = usartRxIe d := rfl
@[simp] theorem Chip.writeCommand_txIe (p : Params) (c : Chip) (d : Byte) :
    (Chip.writeCommand p c d).txIe = usartTxIe p.usartTxIe d := rfl
@[simp] theorem Chip.writeCommand_control (p : Params) (c : Chip) (d : Byte) :
    (Chip.writeCommand p c d).control = c.control := rfl
@[simp] theorem Chip.writeCommand_mode (p : Params) (c : Chip) (d : Byte) :
    (Chip.writeCommand p c d).mode = c.mode := rfl
@[simp] theorem Chip.writeCommand_command (p : Params) (c : Chip) (d : Byte) :
    (Chip.writeCommand p c d).command = d := rfl
@[simp] theorem Chip.writeCommand_phase (p : Params) (c : Chip) (d : Byte) :
    (Chip.writeCommand p c d).phase = (if usartInternalReset d then .expectMode else c.phase) := rfl
@[simp] theorem Chip.writeCommand_overrunCount (p : Params) (c : Chip) (d : Byte) :
    (Chip.writeCommand p c d).overrunCount = c.overrunCount := rfl
@[simp] theorem Chip.construct_variant (v : Variant) : (Chip.construct v).variant = v := rfl
@[simp] theorem Chip.construct_rxData (v : Variant) : (Chip.construct v).rxData = 0x00 := rfl
@[simp] theorem Chip.construct_rxFull (v : Variant) : (Chip.construct v).rxFull = false := rfl
@[simp] theorem Chip.construct_txData (v : Variant) : (Chip.construct v).txData = 0x00 := rfl
@[simp] theorem Chip.construct_txFull (v : Variant) : (Chip.construct v).txFull = false := rfl
@[simp] theorem Chip.construct_rxIe (v : Variant) : (Chip.construct v).rxIe = false := rfl
@[simp] theorem Chip.construct_txIe (v : Variant) : (Chip.construct v).txIe = false := rfl
@[simp] theorem Chip.construct_control (v : Variant) : (Chip.construct v).control = 0x00 := rfl
@[simp] theorem Chip.construct_mode (v : Variant) : (Chip.construct v).mode = 0x00 := rfl
@[simp] theorem Chip.construct_command (v : Variant) : (Chip.construct v).command = 0x00 := rfl
@[simp] theorem Chip.construct_phase (v : Variant) : (Chip.construct v).phase = .expectMode := rfl
@[simp] theorem Chip.construct_overrunCount (v : Variant) : (Chip.construct v).overrunCount = 0 := rfl

end Sys2Proof.Machine
end

