-- ==== Sys2Proof/Laws/Chip.lean ====
section
/-! SUPPORT. The laws of the chip's operations and of the dispatcher: what each can do, and what each keeps. -/

namespace Sys2Proof.Machine

/-- What `push_rx` can do (R150). -/
theorem Chip.pushRx_cases (c : Chip) (b : Byte) :
    (c.rxFull = true ∧ c.pushRx b = { c with overrunCount := c.overrunCount + 1 }) ∨
      (c.rxFull = false ∧ c.pushRx b = { c with rxData := b, rxFull := true }) := by
  cases h : c.rxFull <;> simp [Chip.pushRx, h]

/-- What `take_pending_tx` can do (R151). -/
theorem Chip.takeTx_cases (c : Chip) :
    (c.txFull = true ∧ c.takeTx = (some c.txData, { c with txFull := false })) ∨
      (c.txFull = false ∧ c.takeTx = (none, c)) := by
  cases h : c.txFull <;> simp [Chip.takeTx, h]

/-- What an ACIA control write leaves (R112), field by field. -/
theorem Chip.writeControl_eq (c : Chip) (d : Byte) :
    c.writeControl d =
      { c with
        control := d
        rxIe := aciaRxIe d
        txIe := aciaTxIe d
        rxFull := if aciaSoftReset d then false else c.rxFull
        rxData := if aciaSoftReset d then 0x00 else c.rxData
        txFull := if aciaSoftReset d then false else c.txFull
        txData := if aciaSoftReset d then 0x00 else c.txData } := by
  cases h : aciaSoftReset d <;> simp [Chip.writeControl, Chip.softReset, h]

/-- What a port read can do to the chip (R103): nothing, or clear the receive occupancy. -/
theorem Chip.readPort_cases (p : Params) (c : Chip) (addr : Word) :
    (c.readPort p addr).2 = c ∨ (c.readPort p addr).2 = { c with rxFull := false } := by
  unfold Chip.readPort
  split <;> split <;> (try split) <;> first | exact .inl rfl | exact .inr rfl

/-- What a port write can do to the chip (R104): nothing, or the write of the register the port and the phase name. -/
theorem Chip.writePort_cases (p : Params) (c : Chip) (addr : Word) (d : Byte) :
    c.writePort p addr d = c ∨
      c.writePort p addr d = c.writeData d ∨
      (c.variant = .acia ∧ c.writePort p addr d = c.writeControl d) ∨
      (c.variant = .usart ∧ c.phase = .expectMode ∧ c.writePort p addr d = c.writeMode d) ∨
      (c.variant = .usart ∧ c.phase = .expectCommand ∧ c.writePort p addr d = c.writeCommand p d) := by
  unfold Chip.writePort
  cases hv : c.variant <;> cases hp : c.phase <;> dsimp only <;> split <;> (try split) <;> simp

/-- The chip's part of the invariant. -/
def Chip.Good (p : Params) (c : Chip) : Prop := c.enablesAgree p = true ∧ c.absentFieldsFresh = true

theorem Chip.good_construct (p : Params) (v : Variant) : (Chip.construct v).Good p := by
  cases v <;> constructor <;> simp [Chip.construct, Chip.fresh, Chip.enablesAgree, Chip.absentFieldsFresh]

/-- The buffers are no part of it. -/
theorem Chip.good_buffers {p : Params} {c : Chip} (h : c.Good p) (rd td : Byte) (rf tf : Bool) (n : Nat) :
    ({ c with rxData := rd, rxFull := rf, txData := td, txFull := tf, overrunCount := n } : Chip).Good p := h

theorem Chip.good_writeControl {p : Params} {c : Chip} (h : c.Good p) (hv : c.variant = .acia) (d : Byte) :
    (c.writeControl d).Good p := by
  rw [Chip.writeControl_eq]
  obtain ⟨-, ha⟩ := h
  simp only [Chip.absentFieldsFresh, hv] at ha
  exact ⟨by simp [Chip.enablesAgree, hv, aciaRxIe, aciaTxIe], by simpa only [Chip.absentFieldsFresh, hv] using ha⟩

theorem Chip.good_writeMode {p : Params} {c : Chip} (h : c.Good p) (hv : c.variant = .usart) (d : Byte) :
    (c.writeMode d).Good p := by
  obtain ⟨he, ha⟩ := h
  simp only [Chip.enablesAgree, Chip.absentFieldsFresh, hv] at he ha
  exact ⟨by simpa [Chip.enablesAgree, hv] using he, by simpa [Chip.absentFieldsFresh, hv] using ha⟩

theorem Chip.good_writeCommand {p : Params} {c : Chip} (h : c.Good p) (hv : c.variant = .usart) (d : Byte) :
    (c.writeCommand p d).Good p := by
  obtain ⟨-, ha⟩ := h
  simp only [Chip.absentFieldsFresh, hv] at ha
  refine ⟨?_, by simpa [Chip.absentFieldsFresh, hv] using ha⟩
  cases hp : p.usartTxIe <;> simp [Chip.enablesAgree, hv, usartRxIe, usartTxIe, hp]

theorem Chip.good_readPort {p : Params} {c : Chip} (h : c.Good p) (addr : Word) : (c.readPort p addr).2.Good p := by
  rcases Chip.readPort_cases p c addr with e | e <;> rw [e] <;> exact h

theorem Chip.good_writePort {p : Params} {c : Chip} (h : c.Good p) (addr : Word) (d : Byte) :
    (c.writePort p addr d).Good p := by
  rcases Chip.writePort_cases p c addr d with e | e | ⟨hv, e⟩ | ⟨hv, -, e⟩ | ⟨hv, -, e⟩ <;> rw [e]
  · exact h
  · exact h
  · exact Chip.good_writeControl h hv d
  · exact Chip.good_writeMode h hv d
  · exact Chip.good_writeCommand h hv d

theorem Chip.good_pushRx {p : Params} {c : Chip} (h : c.Good p) (b : Byte) : (c.pushRx b).Good p := by
  rcases Chip.pushRx_cases c b with ⟨-, e⟩ | ⟨-, e⟩ <;> rw [e] <;> exact h

theorem Chip.good_takeTx {p : Params} {c : Chip} (h : c.Good p) : c.takeTx.2.Good p := by
  rcases Chip.takeTx_cases c with ⟨-, e⟩ | ⟨-, e⟩ <;> rw [e] <;> exact h

theorem Chip.readPort_variant (p : Params) (c : Chip) (addr : Word) : (c.readPort p addr).2.variant = c.variant := by
  rcases Chip.readPort_cases p c addr with e | e <;> rw [e]

theorem Chip.writePort_variant (p : Params) (c : Chip) (addr : Word) (d : Byte) :
    (c.writePort p addr d).variant = c.variant := by
  rcases Chip.writePort_cases p c addr d with e | e | ⟨-, e⟩ | ⟨-, -, e⟩ | ⟨-, -, e⟩ <;> rw [e] <;>
    simp [Chip.writeControl_eq]

theorem Chip.pushRx_variant (c : Chip) (b : Byte) : (c.pushRx b).variant = c.variant := by
  rcases Chip.pushRx_cases c b with ⟨-, e⟩ | ⟨-, e⟩ <;> rw [e]

theorem Chip.takeTx_variant (c : Chip) : c.takeTx.2.variant = c.variant := by
  rcases Chip.takeTx_cases c with ⟨-, e⟩ | ⟨-, e⟩ <;> rw [e]

theorem Chip.takeTx_txFull (c : Chip) : c.takeTx.2.txFull = false := by
  rcases Chip.takeTx_cases c with ⟨-, e⟩ | ⟨h, e⟩ <;> rw [e]
  exact h

/-- A byte more in the receive register leaves no request unmade (R33). -/
theorem Chip.interruptRequested_pushRx {c : Chip} (h : c.interruptRequested = true) (b : Byte) :
    (c.pushRx b).interruptRequested = true := by
  rcases Chip.pushRx_cases c b with ⟨-, e⟩ | ⟨hr, e⟩ <;> rw [e]
  · exact h
  · simp only [Chip.interruptRequested, Chip.rxReady, Chip.txReady, hr] at h ⊢
    simp_all

end Sys2Proof.Machine
end

