-- ==== Sys2Proof/Laws/Decode.lean ====
section
/-! SUPPORT. The laws of decoding: what the key of a port cycle selects (spec/30_encoding.md R70 to R73, spec/40_port_dispatch.md R103, R104), and that the data byte passes through. -/

namespace Sys2Proof

open Machine

/-- The instruction with another data byte, where it has one. -/
def Instr.withData (d : Byte) : Instr → Instr
  | .aciaWrControl _ => .aciaWrControl d
  | .aciaWrData _ => .aciaWrData d
  | .usartWrData _ => .usartWrData d
  | .usartWrMode _ => .usartWrMode d
  | .usartWrCommand _ => .usartWrCommand d
  | .idleWrite v a _ => .idleWrite v a d
  | .chipPushRx _ => .chipPushRx d
  | .engPushInputByte _ => .engPushInputByte d
  | i => i

/-- The data byte reaches the instruction as it is, and selects nothing. -/
theorem decode_data (dp : UsartDataPort) (k : Key) (d : Byte) (i : Instr)
    (h : decode dp k Operands.zero = .ok i) :
    decode dp k { Operands.zero with data := d } = .ok (i.withData d) := by
  have hrow : ∀ r ∈ rows dp, r.build k { Operands.zero with data := d } = (r.build k Operands.zero).withData d := by
    simp [rows, portRows, idleRows, chipRows, engineRows, Instr.withData, Operands.zero]
  unfold decode at h ⊢
  cases hf : (rows dp).find? (fun r => r.selects k) with
  | none => rw [hf] at h; cases h
  | some r =>
    rw [hf] at h
    simp only [Except.ok.injEq] at h ⊢
    rw [hrow r (List.mem_of_find?_eq_some hf), h]

namespace Machine

/-- The read of R103 that a port names. -/
def readInstr (dp : UsartDataPort) (v : Variant) (a : Byte) : Instr :=
  match v with
  | .acia => if a = 0x80 then .aciaRdStatus else if a = 0x81 then .aciaRdData else .idleRead .acia a
  | .usart =>
    if a = dataPort dp then .usartRdData else if a = controlPort dp then .usartRdStatus else .idleRead .usart a

/-- The write of R104 that a port and a phase name. -/
def writeInstr (dp : UsartDataPort) (v : Variant) (ph : Phase) (a d : Byte) : Instr :=
  match v with
  | .acia => if a = 0x80 then .aciaWrControl d else if a = 0x81 then .aciaWrData d else .idleWrite .acia a d
  | .usart =>
    if a = dataPort dp then .usartWrData d
    else if a = controlPort dp then
      match ph with
      | .expectMode => .usartWrMode d
      | .expectCommand => .usartWrCommand d
    else .idleWrite .usart a d

/-- The key's fields, from the variant, the phase and the port alone. -/
def keyOf (v : Variant) (ph : Phase) (w : Bool) (a : Byte) : Key :=
  0#1 ++ BitVec.ofBool (v == .usart && ph == .expectCommand) ++ BitVec.ofBool (v == .usart) ++ BitVec.ofBool w ++ a

theorem Chip.portKey_eq (c : Chip) (w : Bool) (addr : Word) :
    c.portKey w addr = keyOf c.variant c.phase w (portOf addr) := by
  unfold Chip.portKey keyOf Chip.keyPH Chip.keyV
  cases c.variant <;> cases c.phase <;> rfl

/-- Every read key formed selects the read of R103: 256 ports, two variants, two phases, two settings. -/
theorem decode_keyOf_read (dp : UsartDataPort) (v : Variant) (ph : Phase) :
    ∀ a : Byte, decode dp (keyOf v ph false a) Operands.zero = .ok (readInstr dp v a) := by
  cases dp <;> cases v <;> cases ph <;> decide +kernel

/-- Every write key formed selects the write of R104. -/
theorem decode_keyOf_write_zero (dp : UsartDataPort) (v : Variant) (ph : Phase) :
    ∀ a : Byte, decode dp (keyOf v ph true a) Operands.zero = .ok (writeInstr dp v ph a 0) := by
  cases dp <;> cases v <;> cases ph <;> decide +kernel

theorem writeInstr_withData (dp : UsartDataPort) (v : Variant) (ph : Phase) (a d : Byte) :
    (writeInstr dp v ph a 0).withData d = writeInstr dp v ph a d := by
  unfold writeInstr
  cases v <;> cases ph <;> dsimp only <;> split_ifs <;> rfl

theorem decode_portRead (dp : UsartDataPort) (c : Chip) (addr : Word) :
    decode dp (Request.key c (.portRead addr)) Operands.zero = .ok (readInstr dp c.variant (portOf addr)) := by
  rw [Request.key, Chip.portKey_eq]
  exact decode_keyOf_read ..

theorem decode_portWrite (dp : UsartDataPort) (c : Chip) (addr : Word) (d : Byte) :
    decode dp (Request.key c (.portWrite addr d)) { Operands.zero with data := d } =
      .ok (writeInstr dp c.variant c.phase (portOf addr) d) := by
  rw [Request.key, Chip.portKey_eq, decode_data dp _ d _ (decode_keyOf_write_zero ..), writeInstr_withData]

/-! ## The fetch -/

/-- What a fetch can do (R70, R71): nothing, a request turned away, or an instruction. -/
theorem State.fetch_cases (s : State) :
    (s.pending = [] ∧ s.fetch = .idle) ∨
      ∃ r rest, s.pending = r :: rest ∧
        ((r.overlaps = true ∧ s.fetch = .overlapping { s with pending := rest }) ∨
          (r.overlaps = false ∧
            decode s.params.usartDataPort (r.key s.chip) r.operands = .error .reservedHostOp ∧
            s.fetch = .reserved { s with pending := rest }) ∨
          ∃ i, r.overlaps = false ∧ decode s.params.usartDataPort (r.key s.chip) r.operands = .ok i ∧
            s.fetch = .instr i { s with pending := rest }) := by
  cases hp : s.pending with
  | nil => exact .inl ⟨rfl, by simp [State.fetch, hp]⟩
  | cons r rest =>
    refine .inr ⟨r, rest, rfl, ?_⟩
    cases ho : r.overlaps with
    | true => exact .inl ⟨rfl, by simp [State.fetch, hp, ho]⟩
    | false =>
      cases hd : decode s.params.usartDataPort (r.key s.chip) r.operands with
      | ok i => exact .inr (.inr ⟨i, rfl, rfl, by simp [State.fetch, hp, ho, hd]⟩)
      | error e =>
        cases e
        exact .inr (.inl ⟨rfl, rfl, by simp [State.fetch, hp, ho, hd]⟩)

end Machine

end Sys2Proof
end

