-- ==== Sys2Proof/Laws/Memory.lean ====
section
/-! SUPPORT. The laws of memory: a read after a write, and the canonical form kept by every memory operation (spec/20_memory.md R50 to R52, R64). -/

namespace Sys2Proof.Machine

theorem Memory.wfFrom_cons (lo a : Nat) (v : Byte) (m : Memory) :
    Memory.wfFrom lo ((a, v) :: m) = true ↔
      lo ≤ a ∧ a < 0x10000 ∧ v ≠ memDefault ∧ Memory.wfFrom (a + 1) m = true := by
  simp [Memory.wfFrom, and_assoc]

/-- A canonical form above a bound is one above every smaller bound. -/
theorem Memory.wfFrom_mono {lo lo' : Nat} {m : Memory} (h : Memory.wfFrom lo m = true) (hle : lo' ≤ lo) :
    Memory.wfFrom lo' m = true := by
  cases m with
  | nil => rfl
  | cons e rest =>
    obtain ⟨a, v⟩ := e
    rw [Memory.wfFrom_cons] at h ⊢
    exact ⟨hle.trans h.1, h.2⟩

/-- An address below the bound of a canonical form is unlisted. -/
theorem Memory.read_below {lo a : Nat} {m : Memory} (h : Memory.wfFrom lo m = true) (ha : a < lo) :
    m.read a = memDefault := by
  induction m generalizing lo with
  | nil => rfl
  | cons e rest ih =>
    obtain ⟨b, v⟩ := e
    rw [Memory.wfFrom_cons] at h
    have hne : b ≠ a := by omega
    simp only [Memory.read, hne, if_false]
    exact ih h.2.2.2 (by omega)

/-- A write keeps the canonical form. -/
theorem Memory.wfFrom_write {lo : Nat} {m : Memory} (h : Memory.wfFrom lo m = true) {a : Nat} (v : Byte)
    (hlo : lo ≤ a) (ha : a < 0x10000) : Memory.wfFrom lo (m.write a v) = true := by
  induction m generalizing lo with
  | nil =>
    simp only [Memory.write]
    split
    · rfl
    · next hv => exact (Memory.wfFrom_cons ..).2 ⟨hlo, ha, hv, rfl⟩
  | cons e rest ih =>
    obtain ⟨b, w⟩ := e
    have h' := (Memory.wfFrom_cons ..).1 h
    simp only [Memory.write]
    split
    · next hab =>
      split
      · exact h
      · next hv =>
        exact (Memory.wfFrom_cons ..).2 ⟨hlo, ha, hv, (Memory.wfFrom_cons ..).2 ⟨hab, h'.2⟩⟩
    · next hab =>
      split
      · next hb =>
        split
        · exact Memory.wfFrom_mono h'.2.2.2 (by omega)
        · next hv => exact (Memory.wfFrom_cons ..).2 ⟨hlo, ha, hv, hb ▸ h'.2.2.2⟩
      · next hb =>
        exact (Memory.wfFrom_cons ..).2 ⟨h'.1, h'.2.1, h'.2.2.1, ih h'.2.2.2 (by omega)⟩

/-- A read after a write: the value written at the address, and every other address as before. -/
theorem Memory.read_write {lo : Nat} {m : Memory} (h : Memory.wfFrom lo m = true) (a b : Nat) (v : Byte) :
    (m.write a v).read b = if b = a then v else m.read b := by
  induction m generalizing lo with
  | nil =>
    simp only [Memory.write]
    split
    · next hv => split <;> simp_all [Memory.read]
    · simp only [Memory.read, eq_comm]
  | cons e rest ih =>
    obtain ⟨c, w⟩ := e
    have h' := (Memory.wfFrom_cons ..).1 h
    simp only [Memory.write]
    split
    · next hac =>
      split
      · next hv =>
        split
        · next hb => rw [hb, Memory.read_below ((Memory.wfFrom_cons ..).2 ⟨hac, h'.2⟩) (Nat.lt_succ_self a), hv]
        · rfl
      · simp only [Memory.read, eq_comm]
    · next hac =>
      split
      · next hc =>
        subst hc
        split
        · next hv =>
          split
          · next hb => rw [hb, Memory.read_below h'.2.2.2 (by omega), hv]
          · next hb => simp only [Memory.read, Ne.symm hb, if_false]
        · simp only [Memory.read, eq_comm]
          split <;> rfl
      · next hc =>
        simp only [Memory.read]
        split
        · next hb => rw [if_neg (by omega)]
        · exact ih h'.2.2.2

theorem Memory.wf_iff (m : Memory) : m.wf = true ↔ Memory.wfFrom 0 m = true := Iff.rfl

theorem Memory.wf_write8 {m : Memory} (h : m.wf = true) (a : Word) (v : Byte) : (m.write8 a v).wf = true :=
  Memory.wfFrom_write h v (Nat.zero_le _) a.isLt

theorem Memory.wf_write16 {m : Memory} (h : m.wf = true) (a v : Word) : (m.write16 a v).wf = true :=
  Memory.wf_write8 (Memory.wf_write8 h a _) _ _

theorem Memory.wf_writeAll {m : Memory} (h : m.wf = true) (l : List (Word × Byte)) : (m.writeAll l).wf = true := by
  induction l generalizing m with
  | nil => exact h
  | cons e rest ih => exact ih (Memory.wf_write8 h e.1 e.2)

theorem Memory.wf_copy {m : Memory} (h : m.wf = true) (at_ : Nat) (l : List Byte) : (m.copy at_ l).wf = true := by
  induction l generalizing m at_ with
  | nil => exact h
  | cons v rest ih => exact ih (Memory.wf_write8 h _ v) _

theorem Memory.read8_write8 {m : Memory} (h : m.wf = true) (a b : Word) (v : Byte) :
    (m.write8 a v).read8 b = if b = a then v else m.read8 b := by
  simp only [Memory.read8, Memory.write8, Memory.read_write h, ← BitVec.toNat_inj]

/-- A 16-bit write, byte by byte: the low byte at `a`, the high byte at `a + 1`, every other byte as before. -/
theorem Memory.read8_write16 {m : Memory} (h : m.wf = true) (a b v : Word) :
    (m.write16 a v).read8 b = if b = a + 1 then v.high else if b = a then v.low else m.read8 b := by
  rw [Memory.write16, Memory.read8_write8 (Memory.wf_write8 h _ _), Memory.read8_write8 h]

theorem Word.succ_ne (a : Word) : a ≠ a + 1 := by
  intro h
  have := congrArg BitVec.toNat h
  simp at this
  omega

theorem Word.ofBytes_high_low (v : Word) : Word.ofBytes v.high v.low = v := by
  apply BitVec.eq_of_getLsbD_eq
  intro i hi
  simp only [Word.ofBytes, Word.high, Word.low, BitVec.getLsbD_append, BitVec.getLsbD_extractLsb']
  by_cases h : i < 8
  · simp [h]
  · have h8 : 8 + (i - 8) = i := by omega
    have hlt : i - 8 < 8 := by omega
    simp [h, h8, hlt]

/-- A 16-bit read after a 16-bit write at the same address gives the value written (R51). -/
theorem Memory.read16_write16 {m : Memory} (h : m.wf = true) (a v : Word) : (m.write16 a v).read16 a = v := by
  rw [Memory.read16, Memory.read8_write16 h, Memory.read8_write16 h, if_pos rfl, if_neg (Word.succ_ne a), if_pos rfl,
    Word.ofBytes_high_low]

/-- The copy of a load, byte by byte, where it does not pass the top of memory (R206). -/
theorem Memory.read8_copy {m : Memory} (h : m.wf = true) (at_ : Nat) (l : List Byte) (hl : at_ + l.length ≤ 0x10000)
    (b : Word) :
    (m.copy at_ l).read8 b =
      if hb : at_ ≤ b.toNat ∧ b.toNat - at_ < l.length then l[b.toNat - at_]'hb.2 else m.read8 b := by
  induction l generalizing m at_ with
  | nil => simp [Memory.copy]
  | cons v rest ih =>
    simp only [List.length_cons] at hl
    have hat : (BitVec.ofNat 16 at_).toNat = at_ := by simp; omega
    rw [Memory.copy, ih (Memory.wf_write8 h _ v) (at_ + 1) (by omega), Memory.read8_write8 h]
    have heq : b = BitVec.ofNat 16 at_ ↔ b.toNat = at_ := by rw [← BitVec.toNat_inj, hat]
    by_cases h1 : b.toNat = at_
    · simp [heq, h1]
    · have h2 : ¬ b = BitVec.ofNat 16 at_ := fun hh => h1 (heq.1 hh)
      by_cases h3 : at_ ≤ b.toNat
      · have h4 : b.toNat - at_ = (b.toNat - (at_ + 1)) + 1 := by omega
        have h5 : at_ + 1 ≤ b.toNat := by omega
        simp [h2, h3, h4, h5]
      · have h5 : ¬ (at_ + 1 ≤ b.toNat) := by omega
        simp [h2, h3, h5]

end Sys2Proof.Machine
end

