-- ==== Sys2Proof/Laws/Sched.lean ====
section
/-! SUPPORT. The laws of the scheduling step: what the pump, the drain, the bridge, the CPU step, the core and the run loop each can do, and what they keep. -/

namespace Sys2Proof.Machine

/-! ## What every part of a step keeps -/

/-- What no part of a scheduling step changes, and the two fields it can only extend. -/
structure State.Kept (s t : State) : Prop where
  params : t.params = s.params
  variant : t.chip.variant = s.chip.variant
  pending : t.pending = s.pending
  refusals : ∃ l, t.refusals = s.refusals ++ l
  refused : s.refused = true → t.refused = true
  out : ∃ l, t.outBuf = s.outBuf ++ l
  fifo : ∃ l, s.hostFifo = l ++ t.hostFifo

theorem State.Kept.refl (s : State) : s.Kept s :=
  ⟨rfl, rfl, rfl, ⟨[], by simp⟩, id, ⟨[], by simp⟩, ⟨[], by simp⟩⟩

theorem State.Kept.trans {s t u : State} (h : s.Kept t) (k : t.Kept u) : s.Kept u := by
  obtain ⟨l1, e1⟩ := h.refusals
  obtain ⟨l2, e2⟩ := k.refusals
  obtain ⟨o1, f1⟩ := h.out
  obtain ⟨o2, f2⟩ := k.out
  obtain ⟨q1, g1⟩ := h.fifo
  obtain ⟨q2, g2⟩ := k.fifo
  exact ⟨k.params.trans h.params, k.variant.trans h.variant, k.pending.trans h.pending,
    ⟨l1 ++ l2, by rw [e2, e1, List.append_assoc]⟩, fun x => k.refused (h.refused x),
    ⟨o1 ++ o2, by rw [f2, f1, List.append_assoc]⟩, ⟨q1 ++ q2, by rw [g1, g2, List.append_assoc]⟩⟩

/-- The invariant in its parts. -/
theorem State.inv_iff (s : State) :
    s.Inv ↔ s.mem.wf = true ∧ s.chip.Good s.params ∧ (s.refused = !s.refusals.isEmpty) := by
  simp [State.Inv, State.inv, Chip.Good, and_assoc]

/-- A refusal keeps the invariant. -/
theorem State.inv_refuse {s : State} (h : s.Inv) (c : RefusalCode) : (s.refuse c).Inv := by
  rw [State.inv_iff] at h ⊢
  exact ⟨h.1, h.2.1, by simp⟩

theorem State.inv_answer {s : State} (h : s.Inv) (r : Result) : (s.answer r).Inv := h

theorem State.kept_refuse (s : State) (c : RefusalCode) : s.Kept (s.refuse c) :=
  ⟨rfl, rfl, rfl, ⟨[c], rfl⟩, fun _ => rfl, ⟨[], by simp⟩, ⟨[], by simp⟩⟩

/-! ## The pump and the drain -/

/-- What the pump can do (R190). -/
theorem State.pump_cases (s : State) :
    ((s.chip.rxFull = true ∨ s.hostFifo = []) ∧ s.pump = s) ∨
      ∃ b rest, s.chip.rxFull = false ∧ s.hostFifo = b :: rest ∧
        s.pump = { s with chip := { s.chip with rxData := b, rxFull := true }, hostFifo := rest } := by
  cases hr : s.chip.rxFull
  · cases hf : s.hostFifo with
    | nil => exact .inl ⟨.inr rfl, by simp [State.pump, hr, hf]⟩
    | cons b rest => exact .inr ⟨b, rest, rfl, rfl, by simp [State.pump, hr, hf, Chip.pushRx]⟩
  · exact .inl ⟨.inl rfl, by simp [State.pump, hr]⟩

/-- What the drain can do (R191). -/
theorem State.drainTx_cases (s : State) :
    (s.chip.txFull = false ∧ s.drainTx = s) ∨
      (s.chip.txFull = true ∧
        s.drainTx = { s with chip := { s.chip with txFull := false }, outBuf := s.outBuf ++ [s.chip.txData] }) := by
  rcases Chip.takeTx_cases s.chip with ⟨h, e⟩ | ⟨h, e⟩
  · exact .inr ⟨h, by simp [State.drainTx, e]⟩
  · exact .inl ⟨h, by simp [State.drainTx, e]⟩

theorem State.kept_pump (s : State) : s.Kept s.pump := by
  rcases State.pump_cases s with ⟨-, e⟩ | ⟨b, rest, -, hf, e⟩ <;> rw [e]
  · exact .refl s
  · exact ⟨rfl, rfl, rfl, ⟨[], by simp⟩, id, ⟨[], by simp⟩, ⟨[b], hf⟩⟩

theorem State.inv_pump {s : State} (h : s.Inv) : s.pump.Inv := by
  rcases State.pump_cases s with ⟨-, e⟩ | ⟨b, rest, -, -, e⟩ <;> rw [e] <;> exact h

theorem State.kept_drainTx (s : State) : s.Kept s.drainTx := by
  rcases State.drainTx_cases s with ⟨-, e⟩ | ⟨-, e⟩ <;> rw [e]
  · exact .refl s
  · exact ⟨rfl, rfl, rfl, ⟨[], by simp⟩, id, ⟨_, rfl⟩, ⟨[], by simp⟩⟩

theorem State.inv_drainTx {s : State} (h : s.Inv) : s.drainTx.Inv := by
  rcases State.drainTx_cases s with ⟨-, e⟩ | ⟨-, e⟩ <;> rw [e] <;> exact h

/-- After a drain the transmit buffer is empty (R114, R136). -/
theorem State.drainTx_txFull (s : State) : s.drainTx.chip.txFull = false := by
  rcases State.drainTx_cases s with ⟨h, e⟩ | ⟨-, e⟩ <;> rw [e]
  exact h

theorem State.drainTx_totalCycles (s : State) : s.drainTx.totalCycles = s.totalCycles := by
  rcases State.drainTx_cases s with ⟨-, e⟩ | ⟨-, e⟩ <;> rw [e]

theorem State.drainTx_cpu (s : State) : s.drainTx.cpu = s.cpu := by
  rcases State.drainTx_cases s with ⟨-, e⟩ | ⟨-, e⟩ <;> rw [e]

theorem State.drainTx_mem (s : State) : s.drainTx.mem = s.mem := by
  rcases State.drainTx_cases s with ⟨-, e⟩ | ⟨-, e⟩ <;> rw [e]

theorem State.drainTx_refused (s : State) : s.drainTx.refused = s.refused := by
  rcases State.drainTx_cases s with ⟨-, e⟩ | ⟨-, e⟩ <;> rw [e]

/-- The pump changes only the chip's receive side and the FIFO. -/
theorem State.pump_cpu (s : State) : s.pump.cpu = s.cpu := by
  rcases State.pump_cases s with ⟨-, e⟩ | ⟨b, rest, -, -, e⟩ <;> rw [e]

theorem State.pump_mem (s : State) : s.pump.mem = s.mem := by
  rcases State.pump_cases s with ⟨-, e⟩ | ⟨b, rest, -, -, e⟩ <;> rw [e]

theorem State.pump_params (s : State) : s.pump.params = s.params := (State.kept_pump s).params

theorem State.pump_totalCycles (s : State) : s.pump.totalCycles = s.totalCycles := by
  rcases State.pump_cases s with ⟨-, e⟩ | ⟨b, rest, -, -, e⟩ <;> rw [e]

theorem State.pump_outBuf (s : State) : s.pump.outBuf = s.outBuf := by
  rcases State.pump_cases s with ⟨-, e⟩ | ⟨b, rest, -, -, e⟩ <;> rw [e]

theorem State.pump_txFull (s : State) : s.pump.chip.txFull = s.chip.txFull := by
  rcases State.pump_cases s with ⟨-, e⟩ | ⟨b, rest, -, -, e⟩ <;> rw [e]

theorem State.pump_refused (s : State) : s.pump.refused = s.refused := by
  rcases State.pump_cases s with ⟨-, e⟩ | ⟨b, rest, -, -, e⟩ <;> rw [e]

/-- A request made before the pump is made after it. -/
theorem State.requested_pump {s : State} (h : s.requested = true) : s.pump.requested = true := by
  rcases State.pump_cases s with ⟨-, e⟩ | ⟨b, rest, hr, -, e⟩ <;> rw [e]
  · exact h
  · have := Chip.interruptRequested_pushRx h b
    simpa [State.requested, Chip.pushRx, hr] using this

/-! ## The bridge -/

/-- What one evaluation of the bridge can do (R170, R171). -/
theorem State.bridge_cases (s : State) :
    (s.injects = true ∧ s.bridge = ((13, true), { s.injectRst38 with irqLine := false })) ∨
      (s.injects = false ∧ s.im0Pending = true ∧
        s.bridge = ((0, false), State.refuse { s with irqLine := false } .im0Unmodelled)) ∨
      (s.injects = false ∧ s.im0Pending = false ∧ s.bridge = ((0, false), { s with irqLine := s.irqLevel })) := by
  cases hi : s.injects <;> cases hz : s.im0Pending <;> simp [State.bridge, hi, hz, injectionCycles]

theorem State.kept_bridge (s : State) : s.Kept s.bridge.2 := by
  rcases State.bridge_cases s with ⟨-, e⟩ | ⟨-, -, e⟩ | ⟨-, -, e⟩ <;> rw [e]
  · exact ⟨rfl, rfl, rfl, ⟨[], by simp⟩, id, ⟨[], by simp⟩, ⟨[], by simp⟩⟩
  · exact ⟨rfl, rfl, rfl, ⟨[.im0Unmodelled], rfl⟩, fun _ => rfl, ⟨[], by simp⟩, ⟨[], by simp⟩⟩
  · exact ⟨rfl, rfl, rfl, ⟨[], by simp⟩, id, ⟨[], by simp⟩, ⟨[], by simp⟩⟩

theorem State.inv_bridge {s : State} (h : s.Inv) : s.bridge.2.Inv := by
  rcases State.bridge_cases s with ⟨-, e⟩ | ⟨-, -, e⟩ | ⟨-, -, e⟩ <;> rw [e]
  · rw [State.inv_iff] at h ⊢
    exact ⟨Memory.wf_write16 h.1 _ _, h.2⟩
  · exact State.inv_refuse (s := { s with irqLine := false }) h _
  · exact h

/-- The bridge never touches the chip, the buffers or the cycle count (R170). -/
theorem State.bridge_chip (s : State) : s.bridge.2.chip = s.chip := by
  rcases State.bridge_cases s with ⟨-, e⟩ | ⟨-, -, e⟩ | ⟨-, -, e⟩ <;> rw [e] <;> rfl

theorem State.bridge_outBuf (s : State) : s.bridge.2.outBuf = s.outBuf := by
  rcases State.bridge_cases s with ⟨-, e⟩ | ⟨-, -, e⟩ | ⟨-, -, e⟩ <;> rw [e] <;> rfl

theorem State.bridge_hostFifo (s : State) : s.bridge.2.hostFifo = s.hostFifo := by
  rcases State.bridge_cases s with ⟨-, e⟩ | ⟨-, -, e⟩ | ⟨-, -, e⟩ <;> rw [e] <;> rfl

theorem State.bridge_totalCycles (s : State) : s.bridge.2.totalCycles = s.totalCycles := by
  rcases State.bridge_cases s with ⟨-, e⟩ | ⟨-, -, e⟩ | ⟨-, -, e⟩ <;> rw [e] <;> rfl

theorem State.bridge_skip (s : State) : s.bridge.1.2 = s.injects := by
  rcases State.bridge_cases s with ⟨h, e⟩ | ⟨h, -, e⟩ | ⟨h, -, e⟩ <;> rw [e, h]

/-! ## The CPU step -/

/-- What an engine step keeps, whatever the engine: it reaches the session only through its own state, the memory and
the chip's ports (R181, R195). -/
structure State.EngineKept (s t : State) : Prop where
  kept : s.Kept t
  total : t.totalCycles = s.totalCycles
  out : t.outBuf = s.outBuf
  fifo : t.hostFifo = s.hostFifo
  line : t.irqLine = s.irqLine
  refused : t.refused = s.refused
  refusals : t.refusals = s.refusals
  tick : t.engineTick = s.engineTick
  inv : s.Inv → t.Inv

theorem State.EngineKept.trans {s t u : State} (h : s.EngineKept t) (k : t.EngineKept u) : s.EngineKept u :=
  ⟨h.kept.trans k.kept, k.total.trans h.total, k.out.trans h.out, k.fifo.trans h.fifo, k.line.trans h.line,
    k.refused.trans h.refused, k.refusals.trans h.refusals, k.tick.trans h.tick, fun x => k.inv (h.inv x)⟩

/-- A chip put in place of the session's, of the same variant and as good. -/
theorem State.engineKept_chip {s : State} {c : Chip} (hv : c.variant = s.chip.variant)
    (hg : s.chip.Good s.params → c.Good s.params) : s.EngineKept { s with chip := c } :=
  ⟨⟨rfl, hv, rfl, ⟨[], by simp⟩, id, ⟨[], by simp⟩, ⟨[], by simp⟩⟩, rfl, rfl, rfl, rfl, rfl, rfl, rfl,
    fun h => (State.inv_iff _).2 ⟨((State.inv_iff s).1 h).1, hg ((State.inv_iff s).1 h).2.1, ((State.inv_iff s).1 h).2.2⟩⟩

theorem EngineRun.exec_kept (r : EngineRun) (s : State) : s.EngineKept (r.exec s).2 := by
  induction r generalizing s with
  | done cpu writes t =>
    exact ⟨⟨rfl, rfl, rfl, ⟨[], by simp [EngineRun.exec]⟩, id, ⟨[], by simp [EngineRun.exec]⟩,
      ⟨[], by simp [EngineRun.exec]⟩⟩, rfl, rfl, rfl, rfl, rfl, rfl, rfl,
      fun h => (State.inv_iff _).2 ⟨Memory.wf_writeAll ((State.inv_iff s).1 h).1 writes, ((State.inv_iff s).1 h).2⟩⟩
  | portRead addr k ih =>
    exact (State.engineKept_chip (Chip.readPort_variant ..) (fun h => Chip.good_readPort h addr)).trans (ih _ _)
  | portWrite addr d k ih =>
    exact (State.engineKept_chip (Chip.writePort_variant ..) (fun h => Chip.good_writePort h addr d)).trans (ih _)

/-- The engine step from the session, its counter advanced. -/
theorem State.engineOutcome_kept (s : State) :
    State.EngineKept { s with engineTick := s.engineTick + 1 } s.engineOutcome.2 :=
  EngineRun.exec_kept _ _

/-- What `CpuStep()` can do (R195): the engine's outcome, or a refusal when it reports 0 T-states. -/
theorem State.cpuStep_cases (s : State) :
    (s.engineOutcome.1 ≠ 0 ∧ s.cpuStep = s.engineOutcome) ∨
      (s.engineOutcome.1 = 0 ∧ s.cpuStep = (0, s.engineOutcome.2.refuse .zeroCycleStep)) := by
  by_cases h : s.engineOutcome.1 = 0 <;> simp [State.cpuStep, h]

theorem State.kept_cpuStep (s : State) : s.Kept s.cpuStep.2 := by
  have hk : s.Kept s.engineOutcome.2 :=
    State.Kept.trans (t := { s with engineTick := s.engineTick + 1 })
      ⟨rfl, rfl, rfl, ⟨[], by simp⟩, id, ⟨[], by simp⟩, ⟨[], by simp⟩⟩ (State.engineOutcome_kept s).kept
  rcases State.cpuStep_cases s with ⟨-, e⟩ | ⟨-, e⟩ <;> rw [e]
  · exact hk
  · exact hk.trans (State.kept_refuse _ _)

theorem State.inv_cpuStep {s : State} (h : s.Inv) : s.cpuStep.2.Inv := by
  have hk : s.engineOutcome.2.Inv := (State.engineOutcome_kept s).inv h
  rcases State.cpuStep_cases s with ⟨-, e⟩ | ⟨-, e⟩ <;> rw [e]
  · exact hk
  · exact State.inv_refuse hk _

theorem State.cpuStep_out (s : State) : s.cpuStep.2.outBuf = s.outBuf := by
  rcases State.cpuStep_cases s with ⟨-, e⟩ | ⟨-, e⟩ <;> rw [e]
  · exact (State.engineOutcome_kept s).out
  · exact (State.engineOutcome_kept s).out

theorem State.cpuStep_fifo (s : State) : s.cpuStep.2.hostFifo = s.hostFifo := by
  rcases State.cpuStep_cases s with ⟨-, e⟩ | ⟨-, e⟩ <;> rw [e]
  · exact (State.engineOutcome_kept s).fifo
  · exact (State.engineOutcome_kept s).fifo

theorem State.cpuStep_total (s : State) : s.cpuStep.2.totalCycles = s.totalCycles := by
  rcases State.cpuStep_cases s with ⟨-, e⟩ | ⟨-, e⟩ <;> rw [e]
  · exact (State.engineOutcome_kept s).total
  · exact (State.engineOutcome_kept s).total

/-- A CPU step of 0 T-states leaves the mark (R195). -/
theorem State.cpuStep_zero {s : State} (h : s.cpuStep.1 = 0) : s.cpuStep.2.refused = true := by
  rcases State.cpuStep_cases s with ⟨hne, e⟩ | ⟨-, e⟩
  · exact absurd (e ▸ h) hne
  · rw [e]; rfl

/-! ## The core of a step -/

/-- Parts (b) and (c) of a step (R193, R196): the injection takes the step, or the CPU steps. -/
theorem State.advance_cases (s : State) :
    (s.injects = true ∧ s.advance = (13, { s.injectRst38 with irqLine := false })) ∨
      (s.injects = false ∧ s.advance = s.bridge.2.cpuStep) := by
  rcases State.bridge_cases s with ⟨h, e⟩ | ⟨h, -, e⟩ | ⟨h, -, e⟩
  · exact .inl ⟨h, by simp [State.advance, e]⟩
  · exact .inr ⟨h, by simp [State.advance, e]⟩
  · exact .inr ⟨h, by simp [State.advance, e]⟩

theorem State.kept_advance (s : State) : s.Kept s.advance.2 := by
  rcases State.advance_cases s with ⟨-, e⟩ | ⟨-, e⟩ <;> rw [e]
  · exact ⟨rfl, rfl, rfl, ⟨[], by simp⟩, id, ⟨[], by simp⟩, ⟨[], by simp⟩⟩
  · exact (State.kept_bridge s).trans (State.kept_cpuStep _)

theorem State.inv_advance {s : State} (h : s.Inv) : s.advance.2.Inv := by
  rcases State.advance_cases s with ⟨-, e⟩ | ⟨-, e⟩ <;> rw [e]
  · rw [State.inv_iff] at h ⊢
    exact ⟨Memory.wf_write16 h.1 _ _, h.2⟩
  · exact State.inv_cpuStep (State.inv_bridge h)

theorem State.advance_total (s : State) : s.advance.2.totalCycles = s.totalCycles := by
  rcases State.advance_cases s with ⟨-, e⟩ | ⟨-, e⟩ <;> rw [e]
  · rfl
  · rw [State.cpuStep_total, State.bridge_totalCycles]

theorem State.advance_out (s : State) : s.advance.2.outBuf = s.outBuf := by
  rcases State.advance_cases s with ⟨-, e⟩ | ⟨-, e⟩ <;> rw [e]
  · rfl
  · rw [State.cpuStep_out, State.bridge_outBuf]

theorem State.advance_fifo (s : State) : s.advance.2.hostFifo = s.hostFifo := by
  rcases State.advance_cases s with ⟨-, e⟩ | ⟨-, e⟩ <;> rw [e]
  · rfl
  · rw [State.cpuStep_fifo, State.bridge_hostFifo]

theorem State.advance_zero {s : State} (h : s.advance.1 = 0) : s.advance.2.refused = true := by
  rcases State.advance_cases s with ⟨-, e⟩ | ⟨-, e⟩ <;> rw [e] at h ⊢
  · exact absurd h (Nat.succ_ne_zero 12)
  · exact State.cpuStep_zero h

theorem State.kept_core (s : State) : s.Kept s.core.2 := by
  have hk := (State.kept_advance s).trans (State.kept_drainTx s.advance.2)
  exact ⟨hk.params, hk.variant, hk.pending, hk.refusals, hk.refused, hk.out, hk.fifo⟩

theorem State.inv_core {s : State} (h : s.Inv) : s.core.2.Inv := State.inv_drainTx (State.inv_advance h)

/-- The cycle account of a step (R194). -/
theorem State.core_total (s : State) : s.core.2.totalCycles = s.totalCycles + s.core.1 := by
  simp only [State.core, State.drainTx_totalCycles, State.advance_total]

theorem State.core_txFull (s : State) : s.core.2.chip.txFull = false := State.drainTx_txFull _

/-- A step appends at most one byte to the output (R191, R200). -/
theorem State.core_out (s : State) : s.core.2.outBuf = s.outBuf ∨ ∃ b, s.core.2.outBuf = s.outBuf ++ [b] := by
  have ho := State.advance_out s
  rcases State.drainTx_cases s.advance.2 with ⟨-, e⟩ | ⟨-, e⟩
  · exact .inl (by simp only [State.core, e, ho])
  · exact .inr ⟨s.advance.2.chip.txData, by simp only [State.core, e, ho]⟩

theorem State.core_fifo (s : State) : s.core.2.hostFifo = s.hostFifo := by
  have ho := State.advance_fifo s
  rcases State.drainTx_cases s.advance.2 with ⟨-, e⟩ | ⟨-, e⟩ <;> simp only [State.core, e, ho]

theorem State.core_zero {s : State} (h : s.core.1 = 0) : s.core.2.refused = true := by
  have := State.advance_zero (s := s) h
  simpa only [State.core, State.drainTx_refused] using this

/-! ## The run loop -/

theorem State.haltStop_cases (s : State) :
    (s.im0Pending = true ∧ s.haltStop = s.refuse .im0Unmodelled) ∨ (s.im0Pending = false ∧ s.haltStop = s) := by
  cases h : s.im0Pending <;> simp [State.haltStop, h]

/-- What one turn of the loop can do (R198): end at the budget, stop on a halt, end on a refused step, or go on. -/
theorem State.runLoop_succ (m fuel acc : Nat) (s : State) :
    (¬ acc < m ∧ State.runLoop m (fuel + 1) acc s = (acc, s)) ∨
      (acc < m ∧ s.pump.stopsHalted = true ∧ State.runLoop m (fuel + 1) acc s = (acc, s.pump.haltStop)) ∨
      (acc < m ∧ s.pump.stopsHalted = false ∧ s.pump.core.1 = 0 ∧
        State.runLoop m (fuel + 1) acc s = (acc, s.pump.core.2)) ∨
      (acc < m ∧ s.pump.stopsHalted = false ∧ s.pump.core.1 ≠ 0 ∧
        State.runLoop m (fuel + 1) acc s = State.runLoop m fuel (acc + s.pump.core.1) s.pump.core.2) := by
  by_cases h : acc < m <;> cases hh : s.pump.stopsHalted <;> by_cases hz : s.pump.core.1 = 0 <;>
    simp [State.runLoop, h, hh, hz]

/-- A property that the pump, the halt stop and the core keep, the loop keeps. -/
theorem State.runLoop_induct {P : State → Prop} (hp : ∀ s, P s → P s.pump) (hh : ∀ s, P s → P s.haltStop)
    (hc : ∀ s, P s → P s.core.2) (m fuel acc : Nat) (s : State) (h : P s) : P (State.runLoop m fuel acc s).2 := by
  induction fuel generalizing acc s with
  | zero => exact h
  | succ fuel ih =>
    rcases State.runLoop_succ m fuel acc s with ⟨-, e⟩ | ⟨-, -, e⟩ | ⟨-, -, -, e⟩ | ⟨-, -, -, e⟩ <;> rw [e]
    · exact h
    · exact hh _ (hp _ h)
    · exact hc _ (hp _ h)
    · exact ih _ _ (hc _ (hp _ h))

theorem State.inv_haltStop {s : State} (h : s.Inv) : s.haltStop.Inv := by
  rcases State.haltStop_cases s with ⟨-, e⟩ | ⟨-, e⟩ <;> rw [e]
  · exact State.inv_refuse h _
  · exact h

theorem State.kept_haltStop (s : State) : s.Kept s.haltStop := by
  rcases State.haltStop_cases s with ⟨-, e⟩ | ⟨-, e⟩ <;> rw [e]
  · exact State.kept_refuse _ _
  · exact .refl s

theorem State.inv_run {s : State} (h : s.Inv) (m : Nat) : (s.run m).2.Inv :=
  State.runLoop_induct (P := State.Inv) (fun _ => State.inv_pump) (fun _ => State.inv_haltStop)
    (fun _ => State.inv_core) m m 0 s h

theorem State.kept_run (s : State) (m : Nat) : s.Kept (s.run m).2 :=
  State.runLoop_induct (P := s.Kept) (fun t h => h.trans (State.kept_pump t)) (fun t h => h.trans (State.kept_haltStop t))
    (fun t h => h.trans (State.kept_core t)) m m 0 s (.refl s)

end Sys2Proof.Machine
end

