-- ==== Sys2Proof/Laws/Exec.lean ====
section
/-! SUPPORT. The laws of exec: every meaning answers a next state, and what it keeps. -/

namespace Sys2Proof.Machine

/-- The next state of every meaning. -/
def execNext (i : Instr) (s : State) : State :=
  match exec i s with
  | .next t => t
  | .fault _ => s
  | .refused _ => s

/-- Every meaning answers a next state. -/
theorem exec_next (i : Instr) (s : State) : exec i s = .next (execNext i s) := by
  cases i
  case chipConstruct id =>
    cases h : variantOfId id <;> simp [execNext, exec, execChipConstruct, h]
  case engConfigure id =>
    cases h : variantOfId id <;> simp [execNext, exec, execEngConfigure, h]
  all_goals rfl

/-- The one way to use an equation `exec i s = .next t`. -/
theorem exec_eq_next {i : Instr} {s t : State} (h : exec i s = .next t) : t = execNext i s := by
  rw [exec_next] at h
  exact (Host.Outcome.next.inj h).symm

/-- Which variants an identifier can name (R81). -/
theorem variantOfId_cases (id : Nat) :
    (id = 0 ∧ variantOfId id = some .acia) ∨ (id = 1 ∧ variantOfId id = some .usart) ∨
      (2 ≤ id ∧ variantOfId id = none) := by
  match id with
  | 0 => exact .inl ⟨rfl, rfl⟩
  | 1 => exact .inr (.inl ⟨rfl, rfl⟩)
  | n + 2 => exact .inr (.inr ⟨by omega, rfl⟩)

/-- ENG.RESET keeps the invariant: the chip is fresh, memory and marks are kept. -/
theorem inv_engReset {s : State} (h : s.Inv) : (execNext .engReset s).Inv := by
  rw [State.inv_iff] at h ⊢
  have hk : s.engineReset.mem = s.mem ∧ s.engineReset.refused = s.refused ∧ s.engineReset.refusals = s.refusals ∧
      s.engineReset.params = s.params := by
    unfold State.engineReset
    split <;> exact ⟨rfl, rfl, rfl, rfl⟩
  refine ⟨?_, Chip.good_construct _ _, ?_⟩
  · exact hk.1 ▸ h.1
  · show s.engineReset.refused = !s.engineReset.refusals.isEmpty
    rw [hk.2.1, hk.2.2.1]
    exact h.2.2

/-- A chip as good in place of the session's keeps the invariant, whatever else changes but memory, parameters and
marks. -/
theorem State.inv_of_chip {s t : State} (h : s.Inv) (hm : t.mem = s.mem) (hr : t.refused = s.refused)
    (hl : t.refusals = s.refusals) (hc : t.chip.Good t.params) : t.Inv := by
  rw [State.inv_iff] at h ⊢
  exact ⟨hm ▸ h.1, hc, by rw [hr, hl]; exact h.2.2⟩

/-- Every operation but the three that write a register of one variant keeps the invariant; those three keep it in the
variant they belong to. -/
theorem inv_exec {i : Instr} {s : State} (h : s.Inv)
    (hv : (∀ d, i = .aciaWrControl d → s.chip.variant = .acia) ∧ (∀ d, i = .usartWrMode d → s.chip.variant = .usart) ∧
      (∀ d, i = .usartWrCommand d → s.chip.variant = .usart)) : (execNext i s).Inv := by
  have hg := ((State.inv_iff s).1 h).2.1
  cases i
  case aciaWrControl d => exact State.inv_of_chip h rfl rfl rfl (Chip.good_writeControl hg (hv.1 d rfl) d)
  case usartWrMode d => exact State.inv_of_chip h rfl rfl rfl (Chip.good_writeMode hg (hv.2.1 d rfl) d)
  case usartWrCommand d => exact State.inv_of_chip h rfl rfl rfl (Chip.good_writeCommand hg (hv.2.2 d rfl) d)
  case chipPushRx b => exact State.inv_of_chip h rfl rfl rfl (Chip.good_pushRx hg b)
  case chipTakePendingTx => exact State.inv_of_chip h rfl rfl rfl (Chip.good_takeTx hg)
  case chipConstruct id =>
    rcases variantOfId_cases id with ⟨-, e⟩ | ⟨-, e⟩ | ⟨-, e⟩ <;> simp only [execNext, exec, execChipConstruct, e]
    · exact State.inv_of_chip h rfl rfl rfl (Chip.good_construct _ _)
    · exact State.inv_of_chip h rfl rfl rfl (Chip.good_construct _ _)
    · exact h
  case engConfigure id =>
    rcases variantOfId_cases id with ⟨-, e⟩ | ⟨-, e⟩ | ⟨-, e⟩ <;> simp only [execNext, exec, execEngConfigure, e]
    · exact State.inv_of_chip h rfl rfl rfl (Chip.good_construct _ _)
    · exact State.inv_of_chip h rfl rfl rfl (Chip.good_construct _ _)
    · exact h
  case bridgeEvaluate => exact State.inv_bridge h
  case engPump => exact State.inv_pump h
  case engDrainTx => exact State.inv_drainTx h
  case engLoadProgram bytes origin =>
    have hi := (State.inv_iff s).1 h
    exact (State.inv_iff _).2 ⟨Memory.wf_copy hi.1 _ _, hi.2⟩
  case engReset => exact inv_engReset h
  case engRun m => exact State.inv_run h m
  case engStepOne => exact State.inv_core (State.inv_pump h)
  all_goals exact h

end Sys2Proof.Machine
end

