-- ==== Sys2Proof/Laws/PerInstr.lean ====
section
/-! SUPPORT. Facts said per instruction: the key format of each row (spec/30_encoding.md R70, R72, R80). -/

namespace Sys2Proof.Laws.KeyFormat

/-- The format bit F that R70 gives a row: 1 for a host call. -/
def isHost : Instr → Bool
  | .aciaRdStatus | .aciaRdData | .aciaWrControl _ | .aciaWrData _ => false
  | .usartRdData | .usartRdStatus | .usartWrData _ | .usartWrMode _ | .usartWrCommand _ => false
  | .idleRead _ _ | .idleWrite _ _ _ => false
  | .chipPushRx _ | .chipTakePendingTx | .chipHasPendingRx | .chipInterruptRequested | .chipConstruct _ => true
  | .bridgeEvaluate | .engPump | .engDrainTx | .engConfigure _ | .engLoadProgram _ _ | .engReset => true
  | .engRun _ | .engStepOne | .engPushInputByte _ | .engPushInputString _ | .engDrainOutput | .engQueryState => true

/-- The direction bit W that R70 gives a port row: 1 for a write. -/
def isPortWrite : Instr → Bool
  | .aciaWrControl _ | .aciaWrData _ | .usartWrData _ | .usartWrMode _ | .usartWrCommand _ | .idleWrite _ _ _ => true
  | .aciaRdStatus | .aciaRdData | .usartRdData | .usartRdStatus | .idleRead _ _ => false
  | .chipPushRx _ | .chipTakePendingTx | .chipHasPendingRx | .chipInterruptRequested | .chipConstruct _ => false
  | .bridgeEvaluate | .engPump | .engDrainTx | .engConfigure _ | .engLoadProgram _ _ | .engReset => false
  | .engRun _ | .engStepOne | .engPushInputByte _ | .engPushInputString _ | .engDrainOutput | .engQueryState => false

/-- Under either data-port setting, the key's bit F is the row's format and bit W its direction, and a host key has
bits 10:5 zero. -/
def Statement (i : Instr) : Prop :=
  ∀ dp : UsartDataPort,
    (encodeKey dp i).getLsbD 11 = isHost i ∧ (encodeKey dp i).getLsbD 8 = isPortWrite i ∧
      (isHost i = true → (encodeKey dp i).extractLsb' 5 6 = 0#6)

/-- A key word with bit 11 clear makes the statement of a port row. -/
theorem key_port {k : Key} {i : Instr} {w : Bool} (h11 : k.getLsbD 11 = false) (h8 : k.getLsbD 8 = w)
    (hi : (isHost i, isPortWrite i) = (false, w)) :
    k.getLsbD 11 = isHost i ∧ k.getLsbD 8 = isPortWrite i ∧ (isHost i = true → k.extractLsb' 5 6 = 0#6) := by
  obtain ⟨h1, h2⟩ := Prod.mk.inj hi
  rw [h1, h2]
  exact ⟨h11, h8, nofun⟩

/-- A key word with bit 11 set and bits 10:5 clear makes the statement of a host row. -/
theorem key_host {k : Key} {i : Instr} (h11 : k.getLsbD 11 = true) (h8 : k.getLsbD 8 = false)
    (h : k.extractLsb' 5 6 = 0#6) (h1 : isHost i = true) (h2 : isPortWrite i = false) :
    k.getLsbD 11 = isHost i ∧ k.getLsbD 8 = isPortWrite i ∧ (isHost i = true → k.extractLsb' 5 6 = 0#6) := by
  rw [h1, h2]
  exact ⟨h11, h8, fun _ => h⟩

theorem aciaRdStatus : Statement .aciaRdStatus :=
  fun _ => key_port (k := 0x080) (w := false) (by decide) (by decide) rfl
theorem aciaRdData : Statement .aciaRdData :=
  fun _ => key_port (k := 0x081) (w := false) (by decide) (by decide) rfl
theorem aciaWrControl (d : Byte) : Statement (.aciaWrControl d) :=
  fun _ => key_port (k := 0x180) (w := true) (by decide) (by decide) rfl
theorem aciaWrData (d : Byte) : Statement (.aciaWrData d) :=
  fun _ => key_port (k := 0x181) (w := true) (by decide) (by decide) rfl
theorem usartRdData : Statement .usartRdData := by
  intro dp
  cases dp
  · exact key_port (k := 0x200) (w := false) (by decide) (by decide) rfl
  · exact key_port (k := 0x201) (w := false) (by decide) (by decide) rfl
theorem usartRdStatus : Statement .usartRdStatus := by
  intro dp
  cases dp
  · exact key_port (k := 0x201) (w := false) (by decide) (by decide) rfl
  · exact key_port (k := 0x200) (w := false) (by decide) (by decide) rfl
theorem usartWrData (d : Byte) : Statement (.usartWrData d) := by
  intro dp
  cases dp
  · exact key_port (k := 0x300) (w := true) (by decide) (by decide) rfl
  · exact key_port (k := 0x301) (w := true) (by decide) (by decide) rfl
theorem usartWrMode (d : Byte) : Statement (.usartWrMode d) := by
  intro dp
  cases dp
  · exact key_port (k := 0x301) (w := true) (by decide) (by decide) rfl
  · exact key_port (k := 0x300) (w := true) (by decide) (by decide) rfl
theorem usartWrCommand (d : Byte) : Statement (.usartWrCommand d) := by
  intro dp
  cases dp
  · exact key_port (k := 0x701) (w := true) (by decide) (by decide) rfl
  · exact key_port (k := 0x700) (w := true) (by decide) (by decide) rfl

theorem idleRead (v : Variant) (a : Byte) : Statement (.idleRead v a) := by
  intro dp
  cases v <;> simp [encodeKey, Variant.keyBit, isHost, isPortWrite]

theorem idleWrite (v : Variant) (a d : Byte) : Statement (.idleWrite v a d) := by
  intro dp
  cases v <;> simp [encodeKey, Variant.keyBit, isHost, isPortWrite]

theorem chipPushRx (b : Byte) : Statement (.chipPushRx b) :=
  fun _ => key_host (k := 0x800) (by decide) (by decide) (by decide) rfl rfl
theorem chipTakePendingTx : Statement .chipTakePendingTx :=
  fun _ => key_host (k := 0x801) (by decide) (by decide) (by decide) rfl rfl
theorem chipHasPendingRx : Statement .chipHasPendingRx :=
  fun _ => key_host (k := 0x802) (by decide) (by decide) (by decide) rfl rfl
theorem chipInterruptRequested : Statement .chipInterruptRequested :=
  fun _ => key_host (k := 0x803) (by decide) (by decide) (by decide) rfl rfl
theorem chipConstruct (id : Nat) : Statement (.chipConstruct id) :=
  fun _ => key_host (k := 0x804) (by decide) (by decide) (by decide) rfl rfl
theorem bridgeEvaluate : Statement .bridgeEvaluate :=
  fun _ => key_host (k := 0x805) (by decide) (by decide) (by decide) rfl rfl
theorem engPump : Statement .engPump :=
  fun _ => key_host (k := 0x806) (by decide) (by decide) (by decide) rfl rfl
theorem engDrainTx : Statement .engDrainTx :=
  fun _ => key_host (k := 0x807) (by decide) (by decide) (by decide) rfl rfl
theorem engConfigure (id : Nat) : Statement (.engConfigure id) :=
  fun _ => key_host (k := 0x808) (by decide) (by decide) (by decide) rfl rfl
theorem engLoadProgram (bytes : List Byte) (origin : Nat) : Statement (.engLoadProgram bytes origin) :=
  fun _ => key_host (k := 0x809) (by decide) (by decide) (by decide) rfl rfl
theorem engReset : Statement .engReset :=
  fun _ => key_host (k := 0x80A) (by decide) (by decide) (by decide) rfl rfl
theorem engRun (maxCycles : Nat) : Statement (.engRun maxCycles) :=
  fun _ => key_host (k := 0x80B) (by decide) (by decide) (by decide) rfl rfl
theorem engStepOne : Statement .engStepOne :=
  fun _ => key_host (k := 0x80C) (by decide) (by decide) (by decide) rfl rfl
theorem engPushInputByte (b : Byte) : Statement (.engPushInputByte b) :=
  fun _ => key_host (k := 0x80D) (by decide) (by decide) (by decide) rfl rfl
theorem engPushInputString (text : List Char) : Statement (.engPushInputString text) :=
  fun _ => key_host (k := 0x80E) (by decide) (by decide) (by decide) rfl rfl
theorem engDrainOutput : Statement .engDrainOutput :=
  fun _ => key_host (k := 0x80F) (by decide) (by decide) (by decide) rfl rfl
theorem engQueryState : Statement .engQueryState :=
  fun _ => key_host (k := 0x810) (by decide) (by decide) (by decide) rfl rfl

end Sys2Proof.Laws.KeyFormat
end

