-- ==== Sys2Proof/Laws/Step.lean ====
section
/-! SUPPORT. What a step can do, said once; and what the bridge and the dispatcher come to where their case is known. -/

namespace Sys2Proof.Machine

/-- The low byte of an assembled word. -/
@[simp] theorem portOf_ofBytes (hi lo : Byte) : portOf (Word.ofBytes hi lo) = lo := by
  simp only [portOf, Word.low, Word.ofBytes]
  exact BitVec.extractLsb'_append_eq_right

/-- Every next state of a step is one of three: the state itself with no request, a request turned away with its mark,
or the decoded instruction's next state in the session without the request. -/
theorem step_next_cases {s t : State} (h : step s = .next t) :
    (t = s ∧ s.pending = []) ∨ ∃ r rest, s.pending = r :: rest ∧
      ((∃ c, t = State.refuseRequest { s with pending := rest } c) ∨
        ∃ i, r.overlaps = false ∧ decode s.params.usartDataPort (r.key s.chip) r.operands = .ok i ∧
          t = execNext i { s with pending := rest }) := by
  rcases State.fetch_cases s with ⟨h1, e⟩ | ⟨r, rest, h1, ⟨-, e⟩ | ⟨-, -, e⟩ | ⟨i, h2, h3, e⟩⟩ <;>
    simp only [step, e] at h
  · exact .inl ⟨(Host.Outcome.next.inj h).symm, h1⟩
  · exact .inr ⟨r, rest, h1, .inl ⟨_, (Host.Outcome.next.inj h).symm⟩⟩
  · exact .inr ⟨r, rest, h1, .inl ⟨_, (Host.Outcome.next.inj h).symm⟩⟩
  · exact .inr ⟨r, rest, h1, .inr ⟨i, h2, h3, exec_eq_next h⟩⟩

/-- What decoding a host key to an instruction says: a chip, bridge or engine row of the table selected it. -/
theorem decode_hostKey {dp : UsartDataPort} {sel : BitVec 11} {o : Operands} {i : Instr}
    (h : decode dp (hostKey sel) o = .ok i) :
    ∃ r, r ∈ chipRows ++ engineRows ∧ r.selects (hostKey sel) = true ∧ i = r.build (hostKey sel) o := by
  unfold decode at h
  cases hf : (rows dp).find? (fun r => r.selects (hostKey sel)) with
  | none => rw [hf] at h; cases h
  | some r =>
    rw [hf] at h
    have h1 := List.find?_some hf
    have h2 := List.mem_of_find?_eq_some hf
    have h3 : (portRows dp ++ idleRows).all (fun r => !r.selects (hostKey sel)) = true := by
      have : ∀ sel, (portRows dp ++ idleRows).all (fun r => !r.selects (hostKey sel)) = true := by
        cases dp <;> decide +kernel
      exact this sel
    rw [rows, ← List.append_assoc, List.mem_append] at h2
    rcases h2 with h2 | h2
    · have := List.all_eq_true.mp h3 r h2
      simp_all
    · exact ⟨r, h2, h1, (Except.ok.inj h).symm⟩

/-- With IFF1 false the bridge does not take the step. -/
theorem State.advance_of_iff1_false {s : State} (h : s.cpu.iff1 = false) :
    s.advance = ({ s with irqLine := s.irqLevel } : State).cpuStep := by
  have hb : s.bridge = ((0, false), { s with irqLine := s.irqLevel }) := by
    simp [State.bridge, State.injects, State.im0Pending, h]
  simp only [State.advance, hb]; simp

/-- With no request the bridge does nothing but lower the line, in every mode. -/
theorem State.bridge_of_not_requested {s : State} (h : s.requested = false) :
    s.bridge = ((0, false), { s with irqLine := false }) := by
  simp [State.bridge, State.injects, State.im0Pending, State.irqLevel, h]

/-- What an engine's reset leaves, on either engine: all of the session but the CPU and the counter. -/
theorem State.engineReset_eq (s : State) :
    ∃ cpu tick, s.engineReset = { s with cpu := cpu, engineTick := tick } := by
  unfold State.engineReset
  split <;> exact ⟨_, _, rfl⟩

/-- A freshly constructed chip requests nothing. -/
@[simp] theorem Chip.interruptRequested_fresh (v : Variant) : (Chip.fresh v).interruptRequested = false := rfl

/-- In mode 2 the bridge does not take the step. -/
theorem State.advance_of_im2 {s : State} (h : s.cpu.im = .im2) :
    s.advance = ({ s with irqLine := s.requested } : State).cpuStep := by
  have hb : s.bridge = ((0, false), { s with irqLine := s.requested }) := by
    simp [State.bridge, State.injects, State.im0Pending, State.irqLevel, h]
  simp only [State.advance, hb]; simp

/-- A write to the data port of the active variant is the data write, whatever the high address byte. -/
theorem Chip.writePort_dataPort {p : Params} {c : Chip} {a n : Byte} (d : Byte)
    (h : (c.variant = .acia ∧ n = 0x81) ∨ (c.variant = .usart ∧ n = dataPort p.usartDataPort)) :
    c.writePort p (Word.ofBytes a n) d = c.writeData d := by
  unfold Chip.writePort; rw [portOf_ofBytes]
  rcases h with ⟨h1, h2⟩ | ⟨h1, h2⟩ <;> rw [h1, h2] <;> simp

/-- A read of the data port of the active variant is the data read. -/
theorem Chip.readPort_dataPort {p : Params} {c : Chip} {a n : Byte}
    (h : (c.variant = .acia ∧ n = 0x81) ∨ (c.variant = .usart ∧ n = dataPort p.usartDataPort)) :
    c.readPort p (Word.ofBytes a n) = c.readData := by
  unfold Chip.readPort; rw [portOf_ofBytes]
  rcases h with ⟨h1, h2⟩ | ⟨h1, h2⟩ <;> rw [h1, h2] <;> simp

/-- Bit 1 of the ACIA status byte and bit 0 of the USART's, with the transmit register empty. -/
theorem Chip.status_txReady {c : Chip} (h : c.txFull = false) :
    c.aciaStatus.getLsbD 1 = true ∧ c.usartStatus.getLsbD 0 = true := by
  have h1 : ∀ a b : Bool, (BitVec.ofBool a ++ 0#5 ++ BitVec.ofBool true ++ BitVec.ofBool b : Byte).getLsbD 1 = true := by
    decide
  have h2 : ∀ a : Bool, (0#6 ++ BitVec.ofBool a ++ BitVec.ofBool true : Byte).getLsbD 0 = true := by decide
  have e : c.txReady = true := by simp [Chip.txReady, h]
  exact ⟨by rw [Chip.aciaStatus, e]; exact h1 _ _, by rw [Chip.usartStatus, e]; exact h2 _⟩

end Sys2Proof.Machine
end

