-- ==== Sys2Proof/Tests/Slice0.lean ====
section
/-! SUPPORT. The model's own tests: the well-formedness smoke, every row's key written out from spec/30_encoding.md, one step per instruction with the values of spec/95_test_vectors.md (each test names its vector), and a witness for the hypotheses of every statement. -/

namespace Sys2Proof.Tests

open Sys2Proof Sys2Proof.Machine

/-! ## Small sessions -/

/-- The next state of a step, if there is one. -/
def nextOf (o : Host.Outcome State Fault Refusal) : Option State :=
  match o with
  | .next t => some t
  | .fault _ => none
  | .refused _ => none

/-- An ACIA session, fresh. -/
def aciaS : State := State.reset

/-- A USART session, fresh. -/
def usartS : State := State.create { Params.default with initialVariant := .usart } []

/-- A session with one byte received. -/
def received (s : State) (b : Byte) : State := { s with chip := { s.chip with rxFull := true, rxData := b } }

/-- A session with one byte in the transmit register. -/
def sent (s : State) (b : Byte) : State := { s with chip := { s.chip with txFull := true, txData := b } }

/-- An ACIA session with control 96 (RIE = 1, TC = 00) and 41 received: the request holds. -/
def askingS : State :=
  { aciaS with chip := { aciaS.chip with control := 0x96, rxIe := true, rxFull := true, rxData := 0x41 } }

/-- A session with the CPU in an interrupt mode, enabled, at a PC with a stack pointer. -/
def cpuAt (s : State) (im : IntMode) (pc sp : Word) : State :=
  { s with cpu := { s.cpu with im := im, iff1 := true, iff2 := true, pc := pc, sp := sp } }

/-- A session with its CPU halted. -/
def haltedS (s : State) : State := { s with cpu := { s.cpu with halted := true } }

/-- A session with one request. -/
def ask (s : State) (r : Request) : State := { s with pending := [r] }

/-- A session whose engine is the external one. -/
def externalS : State := { aciaS with params := { aciaS.params with engine := .external } }

/-- A session whose engine honours the EI shadow and has just executed EI. -/
def shadowS (s : State) : State :=
  { s with params := { s.params with honourEiShadow := true }, cpu := { s.cpu with lastWasEi := true } }

/-- A session with code at address 0. -/
def withCode (s : State) (code : List Byte) : State := { s with mem := s.mem.copy 0 code }

/-! ## Well-formedness -/

theorem test_illformed_idle_read_at_claimed_acia_port : ¬ (Instr.idleRead .acia 0x80).WellFormed := by decide
theorem test_illformed_idle_read_at_claimed_usart_port : ¬ (Instr.idleRead .usart 0x01).WellFormed := by decide
theorem test_illformed_idle_write_at_claimed_acia_port : ¬ (Instr.idleWrite .acia 0x81 0x55).WellFormed := by decide
theorem test_illformed_idle_write_at_claimed_usart_port : ¬ (Instr.idleWrite .usart 0x00 0x55).WellFormed := by decide
theorem test_illformed_chip_construct_of_no_variant : ¬ (Instr.chipConstruct 2).WellFormed := by decide

/-! ## Keys written out from R72 and R80: F PH V W A, or 1 000000 OP -/

/-- The ACIA rows, P_USART_DATA_PORT = 00 (R72). -/
theorem test_decode_acia_rows :
    decode .port00 0b000010000000#12 Operands.zero = .ok .aciaRdStatus ∧
      decode .port00 0b000010000001#12 Operands.zero = .ok .aciaRdData ∧
      decode .port00 0b000110000000#12 { Operands.zero with data := 0x96 } = .ok (.aciaWrControl 0x96) ∧
      decode .port00 0b000110000001#12 { Operands.zero with data := 0x41 } = .ok (.aciaWrData 0x41) := by
  decide

/-- The USART rows, P_USART_DATA_PORT = 00, in both phases (R72). -/
theorem test_decode_usart_rows :
    decode .port00 0b001000000000#12 Operands.zero = .ok .usartRdData ∧
      decode .port00 0b011000000000#12 Operands.zero = .ok .usartRdData ∧
      decode .port00 0b001000000001#12 Operands.zero = .ok .usartRdStatus ∧
      decode .port00 0b011000000001#12 Operands.zero = .ok .usartRdStatus ∧
      decode .port00 0b011100000000#12 { Operands.zero with data := 0x55 } = .ok (.usartWrData 0x55) ∧
      decode .port00 0b001100000001#12 { Operands.zero with data := 0x4E } = .ok (.usartWrMode 0x4E) ∧
      decode .port00 0b011100000001#12 { Operands.zero with data := 0x37 } = .ok (.usartWrCommand 0x37) := by
  decide

/-- The USART rows, P_USART_DATA_PORT = 01 (R72: the two low address bits change places). -/
theorem test_decode_usart_rows_other_port :
    decode .port01 0b001000000001#12 Operands.zero = .ok .usartRdData ∧
      decode .port01 0b001000000000#12 Operands.zero = .ok .usartRdStatus ∧
      decode .port01 0b001100000001#12 Operands.zero = .ok (.usartWrData 0x00) ∧
      decode .port01 0b001100000000#12 Operands.zero = .ok (.usartWrMode 0x00) ∧
      decode .port01 0b011100000000#12 Operands.zero = .ok (.usartWrCommand 0x00) := by
  decide

/-- The idle rows, beside the claimed ports (R72, R73). -/
theorem test_decode_idle_rows :
    decode .port00 0b000010000010#12 Operands.zero = .ok (.idleRead .acia 0x82) ∧
      decode .port00 0b001010000000#12 Operands.zero = .ok (.idleRead .usart 0x80) ∧
      decode .port00 0b000100000001#12 { Operands.zero with data := 0x4E } = .ok (.idleWrite .acia 0x01 0x4E) ∧
      decode .port00 0b001110000001#12 { Operands.zero with data := 0x41 } = .ok (.idleWrite .usart 0x81 0x41) := by
  decide

/-- The chip and bridge rows (R80). -/
theorem test_decode_chip_and_bridge_rows :
    decode .port00 0b100000000000#12 { Operands.zero with data := 0x41 } = .ok (.chipPushRx 0x41) ∧
      decode .port00 0b100000000001#12 Operands.zero = .ok .chipTakePendingTx ∧
      decode .port00 0b100000000010#12 Operands.zero = .ok .chipHasPendingRx ∧
      decode .port00 0b100000000011#12 Operands.zero = .ok .chipInterruptRequested ∧
      decode .port00 0b100000000100#12 { Operands.zero with variantId := 1 } = .ok (.chipConstruct 1) ∧
      decode .port00 0b100000000101#12 Operands.zero = .ok .bridgeEvaluate := by
  decide

/-- The engine rows (R80). -/
theorem test_decode_engine_rows :
    decode .port00 0b100000000110#12 Operands.zero = .ok .engPump ∧
      decode .port00 0b100000000111#12 Operands.zero = .ok .engDrainTx ∧
      decode .port00 0b100000001000#12 { Operands.zero with variantId := 1 } = .ok (.engConfigure 1) ∧
      decode .port00 0b100000001001#12 { Operands.zero with bytes := [0x3E, 0x41], origin := 0x100 } =
        .ok (.engLoadProgram [0x3E, 0x41] 0x100) ∧
      decode .port00 0b100000001010#12 Operands.zero = .ok .engReset ∧
      decode .port00 0b100000001011#12 { Operands.zero with maxCycles := 20 } = .ok (.engRun 20) ∧
      decode .port00 0b100000001100#12 Operands.zero = .ok .engStepOne := by
  decide

/-- The engine rows of the host's buffers and of the snapshot (R80). -/
theorem test_decode_engine_buffer_rows :
    decode .port00 0b100000001101#12 { Operands.zero with data := 0x61 } = .ok (.engPushInputByte 0x61) ∧
      decode .port00 0b100000001110#12 { Operands.zero with text := ['h', 'i'] } = .ok (.engPushInputString ['h', 'i']) ∧
      decode .port00 0b100000001111#12 Operands.zero = .ok .engDrainOutput ∧
      decode .port00 0b100000010000#12 Operands.zero = .ok .engQueryState := by
  decide

/-- Reserved host keys: OP = 0x11, OP = 0x1F, and a non-zero bit 5 (R85). -/
theorem test_decode_reserved :
    decode .port00 0b100000010001#12 Operands.zero = .error .reservedHostOp ∧
      decode .port00 0b100000011111#12 Operands.zero = .error .reservedHostOp ∧
      decode .port00 0b100000100000#12 Operands.zero = .error .reservedHostOp := by
  decide

/-- A table word wider than a key is no key. -/
theorem test_decode_table_word :
    decodeTableWord 16 0x0080 = some .aciaRdStatus ∧ decodeTableWord 16 0x1080 = none ∧
      decodeTableWord 16 0x0811 = none := by
  decide

/-! ## One step per instruction -/

/-- A3. -/
theorem test_acia_rd_status : (execNext .aciaRdStatus askingS).result = .ok (.byte 0x83) := by decide
/-- A11. -/
theorem test_acia_rd_status_transmitting : (execNext .aciaRdStatus (sent aciaS 0x41)).result = .ok (.byte 0x00) := by
  decide
/-- A4: 41, and RDRF falls. -/
theorem test_acia_rd_data :
    (execNext .aciaRdData askingS).result = .ok (.byte 0x41) ∧
      (execNext .aciaRdData askingS).chip.aciaStatus = 0x02 := by decide
/-- A13. -/
theorem test_acia_wr_control_soft_reset :
    (execNext (.aciaWrControl 0x97) (sent askingS 0x55)).chip =
      { aciaS.chip with control := 0x97, rxIe := true } := by decide
/-- A8, A9: TC = 01 alone enables the transmit interrupt. -/
theorem test_acia_wr_control_tc :
    (execNext (.aciaWrControl 0x20) aciaS).chip.txIe = true ∧
      (execNext (.aciaWrControl 0x60) aciaS).chip.txIe = false ∧
      (execNext (.aciaWrControl 0x40) aciaS).chip.txIe = false := by decide
/-- A10: 41 is overwritten. -/
theorem test_acia_wr_data_overwrites :
    (execNext (.aciaWrData 0x42) (sent aciaS 0x41)).chip = (sent aciaS 0x42).chip := by decide
/-- U3. -/
theorem test_usart_rd_data :
    (execNext .usartRdData (received usartS 0x61)).result = .ok (.byte 0x61) ∧
      (execNext .usartRdData (received usartS 0x61)).chip.usartStatus = 0x01 := by decide
/-- U2. -/
theorem test_usart_rd_status : (execNext .usartRdStatus (received usartS 0x61)).result = .ok (.byte 0x03) := by decide
/-- U11: no mode and no TxEN needed. -/
theorem test_usart_wr_data : (execNext (.usartWrData 0x55) usartS).chip = (sent usartS 0x55).chip := by decide
/-- U8. -/
theorem test_usart_wr_mode :
    (execNext (.usartWrMode 0x40) usartS).chip = { usartS.chip with mode := 0x40, phase := .expectCommand } := by decide
/-- U5: RxE enables receive, TxEN does not enable transmit under NEVER. -/
theorem test_usart_wr_command :
    (execNext (.usartWrCommand 0x37) (execNext (.usartWrMode 0x4E) usartS)).chip =
      { usartS.chip with mode := 0x4E, phase := .expectCommand, command := 0x37, rxIe := true } := by decide
/-- U9: internal reset keeps the receive register. -/
theorem test_usart_wr_command_internal_reset :
    (execNext (.usartWrCommand 0x40) (received (execNext (.usartWrMode 0x4E) usartS) 0x61)).chip =
      { (received usartS 0x61).chip with mode := 0x4E, command := 0x40, phase := .expectMode } := by decide
/-- V4, through the step: a port cycle at 0x0082. -/
theorem test_idle_read : (nextOf (step (ask aciaS (.portRead 0x0082)))).map (·.result) = some (.ok (.byte 0xFF)) := by
  decide
/-- V6, through the step. -/
theorem test_idle_write : nextOf (step (ask usartS (.portWrite 0x0080 0x03))) = some { usartS with result := .ok .unit } := by
  decide
/-- A12. -/
theorem test_chip_push_rx_full :
    (execNext (.chipPushRx 0x42) (received aciaS 0x41)).chip = { (received aciaS 0x41).chip with overrunCount := 1 } := by
  decide
/-- H6. -/
theorem test_chip_take_pending_tx :
    (execNext .chipTakePendingTx (sent aciaS 0x41)).result = .ok (.optByte (some 0x41)) := by decide
/-- H1. -/
theorem test_chip_take_pending_tx_none : (execNext .chipTakePendingTx aciaS).result = .ok (.optByte none) := by decide
/-- H2. -/
theorem test_chip_has_pending_rx :
    (execNext .chipHasPendingRx (execNext (.chipPushRx 0x41) aciaS)).result = .ok (.flag true) := by decide
/-- H5, H6: transmit empty with its enable; not while a byte waits. -/
theorem test_chip_interrupt_requested :
    (execNext .chipInterruptRequested (execNext (.aciaWrControl 0x20) aciaS)).result = .ok (.flag true) ∧
      (execNext .chipInterruptRequested (execNext (.aciaWrControl 0x20) (sent aciaS 0x41))).result = .ok (.flag false) := by
  decide
/-- H7. -/
theorem test_chip_construct : (execNext (.chipConstruct 1) askingS).chip = usartS.chip := by decide
/-- B3: the push wraps. -/
theorem test_bridge_evaluate_wraps :
    (execNext .bridgeEvaluate (cpuAt askingS .im1 0x0005 0x0001)).mem = [(0xFFFF, 0x05)] ∧
      (execNext .bridgeEvaluate (cpuAt askingS .im1 0x0005 0x0001)).cpu.sp = 0xFFFF ∧
      (execNext .bridgeEvaluate (cpuAt askingS .im1 0x0005 0x0001)).cpu.pc = 0x0038 := by decide
/-- B12. -/
theorem test_bridge_evaluate_mode_0 :
    (execNext .bridgeEvaluate (cpuAt askingS .im0 0x0005 0x8000)).refused = true ∧
      (execNext .bridgeEvaluate (cpuAt askingS .im0 0x0005 0x8000)).mem = [] := by decide
/-- E2. -/
theorem test_eng_pump :
    (execNext .engPump { aciaS with hostFifo := [0x61, 0x62] }).chip = (received aciaS 0x61).chip ∧
      (execNext .engPump { aciaS with hostFifo := [0x61, 0x62] }).hostFifo = [0x62] := by decide
/-- E3. -/
theorem test_eng_pump_full :
    (execNext .engPump { received aciaS 0x61 with hostFifo := [0x62] }).hostFifo = [0x62] := by decide
/-- R191, W7's order. -/
theorem test_eng_drain_tx :
    (execNext .engDrainTx { sent aciaS 0x42 with outBuf := [0x41] }).outBuf = [0x41, 0x42] ∧
      (execNext .engDrainTx (sent aciaS 0x42)).chip.txFull = false := by decide
/-- E12: the chip fresh, PC kept. -/
theorem test_eng_configure :
    (execNext (.engConfigure 0) (cpuAt askingS .im1 0x1234 0x8000)).chip = aciaS.chip ∧
      (execNext (.engConfigure 0) (cpuAt askingS .im1 0x1234 0x8000)).cpu.pc = 0x1234 := by decide
/-- E11. -/
theorem test_eng_configure_unsupported :
    execNext (.engConfigure 2) askingS = { askingS with result := .error (.configurationError 2) } := by decide
/-- E8: truncated at the top of memory, and no wrap. -/
theorem test_eng_load_program_truncates :
    (execNext (.engLoadProgram [0x01, 0x02, 0x03, 0x04] 0xFFFE) aciaS).mem = [(0xFFFE, 0x01), (0xFFFF, 0x02)] ∧
      (execNext (.engLoadProgram [0x01, 0x02, 0x03, 0x04] 0xFFFE) aciaS).result =
        .okWithWarning (.natural 2) (.loadError 2) := by decide
/-- E9, E10. -/
theorem test_eng_load_program_beyond_memory :
    (execNext (.engLoadProgram [0x01] 0x10000) aciaS).result = .okWithWarning (.natural 0) (.loadError 0) ∧
      (execNext (.engLoadProgram [] 0x10000) aciaS).result = .ok (.natural 0) := by decide
/-- E13. -/
theorem test_eng_reset :
    execNext .engReset
        { execNext (.usartWrMode 0x4E) usartS with totalCycles := 500, outBuf := [0x41], hostFifo := [0x61] } =
      { usartS with outBuf := [0x41], hostFifo := [0x61], result := .ok .unit } := by decide
/-- P1. -/
theorem test_eng_run_p1 :
    (execNext (.engRun 20) (withCode aciaS [0x3E, 0x41, 0xD3, 0x81])).result = .ok (.natural 22) ∧
      (execNext (.engRun 20) (withCode aciaS [0x3E, 0x41, 0xD3, 0x81])).outBuf = [0x41] ∧
      (execNext (.engRun 20) (withCode aciaS [0x3E, 0x41, 0xD3, 0x81])).cpu.pc = 0x0005 := by decide +kernel
/-- E17. -/
theorem test_eng_run_halted_mode_0 :
    (execNext (.engRun 100) (haltedS (cpuAt askingS .im0 0x000B 0x8000))).result = .ok (.natural 0) ∧
      (execNext (.engRun 100) (haltedS (cpuAt askingS .im0 0x000B 0x8000))).refused = true := by decide +kernel
/-- B6. -/
theorem test_eng_step_one_wakes :
    (execNext .engStepOne (haltedS (cpuAt askingS .im1 0x000B 0x8000))).result = .ok (.natural 13) ∧
      (execNext .engStepOne (haltedS (cpuAt askingS .im1 0x000B 0x8000))).cpu.halted = false ∧
      (execNext .engStepOne (haltedS (cpuAt askingS .im1 0x000B 0x8000))).mem = [(0x7FFE, 0x0B)] := by decide +kernel
/-- B4: IFF1 false, a NOP at PC, the request stays pending. -/
theorem test_eng_step_one_masked :
    (execNext .engStepOne askingS).result = .ok (.natural 4) ∧ (execNext .engStepOne askingS).requested = true ∧
      (execNext .engStepOne askingS).cpu.pc = 0x0001 := by decide +kernel
/-- W6. -/
theorem test_eng_push_input_byte :
    (execNext (.engPushInputByte 0x62) { aciaS with hostFifo := [0x61] }).hostFifo = [0x61, 0x62] := by decide
/-- E5. -/
theorem test_eng_push_input_string :
    (execNext (.engPushInputString ['é']) aciaS).hostFifo = [0xC3, 0xA9] := by decide
/-- E7. -/
theorem test_eng_drain_output :
    execNext .engDrainOutput { aciaS with outBuf := [0x41] } = { aciaS with result := .ok (.bytes [0x41]) } := by decide
/-- E18. -/
theorem test_eng_query_state :
    (execNext .engQueryState { aciaS with refused := true, hostFifo := [0x61] }).result =
      .ok (.snapshot {
        pc := 0, sp := 0xFFFF, registers := GenRegs.reset, flags := 0xFF, im := .im0, halted := false, totalCycles := 0,
        iff1 := false, iff2 := false, chip := aciaS.chip, hostFifoLen := 1, refused := true }) := by decide

/-- `withFetchWord` at reset: the next step carries the row out (key 0x701, USART.WR_COMMAND, operands zero). -/
theorem test_with_fetch_word :
    (nextOf (step (State.reset.withFetchWord 16 0x701))).map (·.chip) =
      some { usartS.chip with command := 0x00, phase := .expectCommand } := by decide

/-! ## Witnesses: a state and operands that meet the hypotheses of each statement -/

theorem witness_DecodeOfEncodeIsTheInstruction :
    (Instr.idleRead .acia 0x82).WellFormed ∧ (Instr.idleWrite .acia 0x7F 0xFF).WellFormed ∧
      (Instr.idleRead .usart 0x02).WellFormed ∧ (Instr.idleWrite .usart 0xFF 0x00).WellFormed ∧
      (Instr.chipConstruct 1).WellFormed ∧ (Instr.engConfigure 7).WellFormed := by decide

theorem witness_StepRunsTheDecodedInstruction :
    ∃ (s : State) (r : Request) (rest : List Request) (i : Instr),
      s.pending = r :: rest ∧ r.overlaps = false ∧
        decode s.params.usartDataPort (r.key s.chip) r.operands = .ok i :=
  ⟨ask usartS (.portWrite 0x0001 0x4E), .portWrite 0x0001 0x4E, [], .usartWrMode 0x4E, by decide⟩

theorem witness_StepWithoutAnInstructionOnlyMarks_idle : ∃ s : State, s.pending = [] := ⟨aciaS, by decide⟩

theorem witness_StepWithoutAnInstructionOnlyMarks_overlap :
    ∃ (s : State) (sel : BitVec 11) (o : Operands) (rest : List Request), s.pending = .host sel o true :: rest :=
  ⟨ask aciaS (.host 0x00B Operands.zero true), 0x00B, Operands.zero, [], by decide⟩

theorem witness_StepWithoutAnInstructionOnlyMarks_reserved :
    ∃ (s : State) (sel : BitVec 11) (o : Operands) (rest : List Request), s.pending = .host sel o false :: rest ∧
      decode s.params.usartDataPort (hostKey sel) o = .error .reservedHostOp :=
  ⟨ask aciaS (.host 0x011 Operands.zero false), 0x011, Operands.zero, [], by decide⟩

theorem witness_HighAddressByteIsIgnored :
    ∃ a b : Word, a.extractLsb' 0 8 = b.extractLsb' 0 8 ∧ a ≠ b := ⟨0x0080, 0xFF80, by decide⟩

theorem witness_EveryStepKeepsTheInvariant :
    ∃ s t : State, s.Inv ∧ step s = .next t ∧ t.chip ≠ s.chip :=
  ⟨ask aciaS (.portWrite 0x0080 0xB5), _, by decide, rfl, by decide⟩

theorem witness_NoStepClearsTheRefusedMark :
    ∃ s t : State, step s = .next t ∧ s.refused = true :=
  ⟨{ ask aciaS (.host 0x00A Operands.zero false) with refused := true }, _, rfl, rfl⟩

theorem witness_NoStepChangesTheParameters : ∃ s t : State, step s = .next t ∧ t.chip ≠ s.chip :=
  ⟨ask aciaS (.portWrite 0x0081 0x41), _, rfl, by decide⟩

theorem witness_VariantChangesOnlyByConfigureOrConstruct_configure :
    ∃ s t : State, step s = .next t ∧ t.chip.variant ≠ s.chip.variant :=
  ⟨ask aciaS (.host 0x008 { Operands.zero with variantId := 1 } false), _, rfl, by decide⟩

theorem witness_VariantChangesOnlyByConfigureOrConstruct_construct :
    ∃ s t : State, step s = .next t ∧ t.chip.variant ≠ s.chip.variant :=
  ⟨ask usartS (.host 0x004 { Operands.zero with variantId := 0 } false), _, rfl, by decide⟩

theorem witness_ChipOperationsChangeOnlyTheChip :
    ∃ (i : Instr) (s t : State), i.chipOnly = true ∧ exec i s = .next t ∧ t.chip ≠ s.chip :=
  ⟨.aciaRdData, askingS, _, rfl, rfl, by decide⟩

theorem witness_CpuAndMemoryAreWrittenOnlyByTheNamedOperations :
    ∃ (i : Instr) (s t : State), i.runsCpu = false ∧ exec i s = .next t ∧ i ≠ .engReset ∧
      ∀ (bytes : List Byte) (origin : Nat), i ≠ .engLoadProgram bytes origin :=
  ⟨.engPump, { aciaS with hostFifo := [0x61] }, _, rfl, rfl, by decide, nofun⟩

theorem witness_EnablesAndPhaseAreWrittenOnlyByTheNamedOperations :
    ∃ (i : Instr) (s t : State), i.writesEnablesOrPhase = false ∧ exec i s = .next t ∧ s.chip.rxIe = true :=
  ⟨.chipPushRx 0x42, askingS, _, rfl, rfl, rfl⟩

theorem witness_SessionCreationValues : ∃ p : Params, p.engine = .vectorZ80 := ⟨Params.default, rfl⟩

theorem witness_EngineResetEffect_vector : ∃ s : State, s.params.engine = .vectorZ80 := ⟨askingS, rfl⟩
theorem witness_EngineResetEffect_external : ∃ s : State, s.params.engine = .external := ⟨externalS, rfl⟩
theorem witness_NewSessionsMeetTheInvariant : ∃ mem : Memory, mem.wf = true ∧ mem ≠ [] :=
  ⟨[(0x0000, 0x3E), (0xFFFF, 0x76)], by decide⟩

theorem witness_UnclaimedPortsAreIdle :
    ∃ (s : State) (addr : Word), s.chip.variant.claims (addr.extractLsb' 0 8) = false := ⟨aciaS, 0x1282, by decide⟩

theorem witness_AciaControlWrite_soft_reset : ∃ d : Byte, d.getLsbD 0 = true := ⟨0x97, by decide⟩
theorem witness_AciaControlWrite_plain : ∃ d : Byte, d.getLsbD 0 = false := ⟨0x96, by decide⟩

theorem witness_PhaseDecidesTheMeaningOfAPortWrite_mode :
    ∃ (s : State) (addr : Word), s.chip.variant = .usart ∧ addr.extractLsb' 0 8 = controlPort s.params.usartDataPort ∧
      s.chip.phase = .expectMode := ⟨usartS, 0x0001, by decide⟩
theorem witness_PhaseDecidesTheMeaningOfAPortWrite_command :
    ∃ (s : State) (addr : Word) (d : Byte), s.chip.variant = .usart ∧
      addr.extractLsb' 0 8 = controlPort s.params.usartDataPort ∧ s.chip.phase = .expectCommand ∧ usartInternalReset d = true :=
  ⟨execNext (.usartWrMode 0x4E) { usartS with params := { usartS.params with usartDataPort := .port01 } }, 0xFF00, 0x40,
    by decide⟩
theorem witness_PhaseDecidesTheMeaningOfAPortWrite_command_kept :
    ∃ (s : State) (d : Byte), s.chip.phase = .expectCommand ∧ usartInternalReset d = false :=
  ⟨execNext (.usartWrMode 0x4E) usartS, 0x37, by decide⟩

theorem witness_UsartRecoverySequenceEndsInExpectMode :
    ∃ (s : State) (addr : Word), s.chip.variant = .usart ∧ addr.extractLsb' 0 8 = controlPort s.params.usartDataPort ∧
      s.chip.phase = .expectCommand :=
  ⟨execNext (.usartWrMode 0x4E) usartS, 0x0001, by decide⟩

theorem witness_PushRxStoresOrCountsTheDrop_empty : ∃ s : State, s.chip.rxFull = false := ⟨aciaS, rfl⟩
theorem witness_PushRxStoresOrCountsTheDrop_full : ∃ s : State, s.chip.rxFull = true := ⟨askingS, rfl⟩
theorem witness_TakePendingTx_full : ∃ s : State, s.chip.txFull = true := ⟨sent aciaS 0x41, rfl⟩
theorem witness_TakePendingTx_empty : ∃ s : State, s.chip.txFull = false ∧ s.chip.txIe = true :=
  ⟨execNext (.aciaWrControl 0x20) aciaS, by decide⟩

theorem witness_ChipConstructionValues :
    (∃ (id : Nat) (v : Variant), (id = 0 ∧ v = .acia) ∨ (id = 1 ∧ v = .usart)) ∧ ∃ id : Nat, 2 ≤ id :=
  ⟨⟨1, .usart, by decide⟩, 2, by decide⟩

theorem witness_ConfigureRecreatesTheChip :
    (∃ (id : Nat) (v : Variant), (id = 0 ∧ v = .acia) ∨ (id = 1 ∧ v = .usart)) ∧ ∃ id : Nat, 2 ≤ id :=
  ⟨⟨0, .acia, by decide⟩, 2, by decide⟩

theorem witness_WordStoresAreLittleEndianAndWrap :
    ∃ (m : Memory) (a b : Word), m.wf = true ∧ b ≠ a ∧ b ≠ a + 1 :=
  ⟨[(0x0000, 0x01), (0xFFFF, 0x02)], 0xFFFF, 0x0001, by decide⟩

theorem witness_BridgeDecoderTable_injects :
    ∃ s : State, s.cpu.im = .im1 ∧ s.cpu.iff1 = true ∧ s.requested = true ∧
      (s.params.honourEiShadow = false ∨ s.cpu.lastWasEi = false) := ⟨cpuAt askingS .im1 0x1234 0x8000, by decide⟩
theorem witness_BridgeDecoderTable_masked :
    ∃ s : State, s.cpu.im = .im1 ∧ (s.cpu.iff1 = false ∨ s.requested = false ∨
      (s.params.honourEiShadow = true ∧ s.cpu.lastWasEi = true)) := ⟨shadowS (cpuAt askingS .im1 0x1234 0x8000), by decide⟩
theorem witness_BridgeDecoderTable_mode_2 : ∃ s : State, s.cpu.im = .im2 := ⟨cpuAt askingS .im2 0x1234 0x8000, by decide⟩
theorem witness_BridgeDecoderTable_mode_0 :
    ∃ s : State, s.cpu.im = .im0 ∧ s.cpu.iff1 = true ∧ s.requested = true := ⟨cpuAt askingS .im0 0x1234 0x8000, by decide⟩
theorem witness_BridgeDecoderTable_mode_0_quiet :
    ∃ s : State, s.cpu.im = .im0 ∧ (s.cpu.iff1 = false ∨ s.requested = false) := ⟨askingS, by decide⟩

/-- At the boundary SP = 0x0001, where the pushed word wraps. -/
theorem witness_InjectionPushesTheReturnAddress :
    ∃ s : State, s.mem.wf = true ∧ s.cpu.im = .im1 ∧ s.cpu.iff1 = true ∧ s.requested = true ∧
      (s.params.honourEiShadow = false ∨ s.cpu.lastWasEi = false) ∧ s.cpu.sp = 0x0001 :=
  ⟨cpuAt askingS .im1 0x0005 0x0001, by decide⟩

theorem witness_StepOneTakesThePendingInterrupt_requested :
    ∃ s : State, s.mem.wf = true ∧ s.cpu.im = .im1 ∧ s.cpu.iff1 = true ∧
      (s.params.honourEiShadow = false ∨ s.cpu.lastWasEi = false) ∧ s.requested = true :=
  ⟨cpuAt askingS .im1 0x1234 0x8000, by decide⟩
theorem witness_StepOneTakesThePendingInterrupt_pumped :
    ∃ s : State, s.mem.wf = true ∧ s.cpu.im = .im1 ∧ s.cpu.iff1 = true ∧
      (s.params.honourEiShadow = false ∨ s.cpu.lastWasEi = false) ∧
      (s.chip.rxFull = false ∧ s.chip.rxIe = true ∧ s.hostFifo ≠ []) :=
  ⟨{ cpuAt (execNext (.aciaWrControl 0x96) aciaS) .im1 0x1234 0x8000 with hostFifo := [0x41] }, by decide⟩

theorem witness_ModeTwoStepVectorsThroughTheTable :
    ∃ s : State, s.params.engine = .vectorZ80 ∧ s.mem.wf = true ∧ s.cpu.im = .im2 ∧ s.cpu.iff1 = true ∧
      s.cpu.lastWasEi = false ∧ s.requested = true ∧ s.cpu.halted = true :=
  ⟨haltedS (cpuAt askingS .im2 0x1234 0x8000), by decide⟩

theorem witness_PumpMovesOneHostByte_moves :
    ∃ (s : State) (b : Byte) (rest : List Byte), s.chip.rxFull = false ∧ s.hostFifo = b :: rest :=
  ⟨{ aciaS with hostFifo := [0x61] }, 0x61, [], by decide⟩
theorem witness_PumpMovesOneHostByte_waits : ∃ s : State, s.chip.rxFull = true ∨ s.hostFifo = [] := ⟨askingS, by decide⟩
theorem witness_DrainMovesTheTransmittedByte_moves : ∃ s : State, s.chip.txFull = true := ⟨sent aciaS 0x41, rfl⟩
theorem witness_DrainMovesTheTransmittedByte_waits : ∃ s : State, s.chip.txFull = false := ⟨aciaS, rfl⟩

/-- A NOP at address 0, no interrupt: 4 T-states. -/
theorem witness_StepOneRunsOneCpuStep :
    ∃ (s u v : State) (n : Nat),
      exec .bridgeEvaluate s.pump = .next { u with result := .ok (.evaluation 0 false) } ∧ u.result = s.result ∧
        u.engineProgram.exec { u with engineTick := u.engineTick + 1 } = (n, v) ∧ n ≠ 0 :=
  ⟨aciaS, aciaS, { aciaS with engineTick := 1, cpu := aciaS.cpu.after 1 1 }, 4, rfl, rfl, rfl, by decide⟩

theorem witness_HaltedRunWithoutWakeReturnsAtOnce_masked :
    ∃ (m : Nat) (s : State), 0 < m ∧ s.cpu.halted = true ∧ (s.cpu.iff1 = false ∨ s.pump.requested = false) :=
  ⟨100, haltedS aciaS, by decide⟩
theorem witness_HaltedRunWithoutWakeReturnsAtOnce_mode_0 :
    ∃ (m : Nat) (s : State), 0 < m ∧ s.cpu.halted = true ∧ s.cpu.im = .im0 ∧ s.cpu.iff1 = true ∧
      s.pump.requested = true := ⟨1, haltedS (cpuAt askingS .im0 0x000B 0x8000), by decide⟩

theorem witness_HaltedRunWakesOnARequest :
    ∃ (m : Nat) (s : State), 0 < m ∧ m ≤ 13 ∧ s.mem.wf = true ∧ s.cpu.halted = true ∧ s.cpu.im = .im1 ∧
      s.cpu.iff1 = true ∧ (s.params.honourEiShadow = false ∨ s.cpu.lastWasEi = false) ∧ s.requested = true :=
  ⟨13, haltedS (cpuAt askingS .im1 0x000B 0x8000), by decide⟩

theorem witness_RunKeepsTheTransmitRegisterEmpty :
    ∃ (m : Nat) (s t : State), s.chip.txFull = false ∧ exec (.engRun m) s = .next t :=
  ⟨20, aciaS, _, rfl, rfl⟩

theorem witness_OutToTheDataPortReachesTheOutput_acia :
    ∃ s : State, s.params.engine = .vectorZ80 ∧ s.cpu.halted = false ∧ s.cpu.iff1 = false ∧ s.chip.txFull = false ∧
      s.mem.read8 s.cpu.pc = 0xD3 ∧ s.chip.variant = .acia ∧ s.mem.read8 (s.cpu.pc + 1) = 0x81 :=
  ⟨withCode aciaS [0xD3, 0x81], by decide⟩
theorem witness_OutToTheDataPortReachesTheOutput_usart :
    ∃ s : State, s.params.engine = .vectorZ80 ∧ s.cpu.halted = false ∧ s.cpu.iff1 = false ∧ s.chip.txFull = false ∧
      s.mem.read8 s.cpu.pc = 0xD3 ∧ s.chip.variant = .usart ∧
      s.mem.read8 (s.cpu.pc + 1) = dataPort s.params.usartDataPort :=
  ⟨withCode usartS [0xD3, 0x00], by decide⟩

theorem witness_QueuedHostByteReachesTheAccumulator_acia :
    ∃ (s : State) (b : Byte) (rest : List Byte), s.params.engine = .vectorZ80 ∧ s.cpu.halted = false ∧
      s.cpu.iff1 = false ∧ s.chip.rxFull = false ∧ s.hostFifo = b :: rest ∧ s.mem.read8 s.cpu.pc = 0xDB ∧
      s.chip.variant = .acia ∧ s.mem.read8 (s.cpu.pc + 1) = 0x81 :=
  ⟨{ withCode aciaS [0xDB, 0x81] with hostFifo := [0x61, 0x62] }, 0x61, [0x62], by decide⟩
theorem witness_QueuedHostByteReachesTheAccumulator_usart :
    ∃ (s : State) (b : Byte) (rest : List Byte), s.params.engine = .vectorZ80 ∧ s.cpu.halted = false ∧
      s.cpu.iff1 = false ∧ s.chip.rxFull = false ∧ s.hostFifo = b :: rest ∧ s.mem.read8 s.cpu.pc = 0xDB ∧
      s.chip.variant = .usart ∧ s.mem.read8 (s.cpu.pc + 1) = dataPort s.params.usartDataPort :=
  ⟨{ withCode usartS [0xDB, 0x00] with hostFifo := [0x61] }, 0x61, [], by decide⟩

theorem witness_LoadProgramCopiesAndTruncates :
    ∃ (bytes : List Byte) (origin n i : Nat) (a : Word) (s : State), s.mem.wf = true ∧
      n = min bytes.length (if origin ≤ 0xFFFF then 0x10000 - origin else 0) ∧ i < n ∧
      (a.toNat < origin ∨ origin + n ≤ a.toNat) :=
  ⟨[0x01, 0x02, 0x03, 0x04], 0xFFFE, 2, 1, 0x0000, aciaS, by decide⟩
theorem witness_LoadProgramCopiesAndTruncates_beyond_memory :
    ∃ (bytes : List Byte) (origin n : Nat) (a : Word), n = min bytes.length (if origin ≤ 0xFFFF then 0x10000 - origin else 0) ∧
      n < bytes.length ∧ (a.toNat < origin ∨ origin + n ≤ a.toNat) :=
  ⟨[0x01], 0x10000, 0, 0xFFFF, by decide⟩

end Sys2Proof.Tests
end

/-! PROOFS. The chip's state (spec/10_state.md): the step of a port write is the dispatch of R104, from which the phase decides what a command/status write means (R30); and the interrupt request is R33's predicate. -/

namespace Sys2Proof.Machine

/-! ## The step of a port write -/

/-- A request that decodes to an instruction is carried out as that instruction, in the session without it (R70, R71). -/
theorem step_of_decode {s : State} {r : Request} {rest : List Request} {i : Instr} (hp : s.pending = r :: rest)
    (ho : r.overlaps = false) (hd : decode s.params.usartDataPort (r.key s.chip) r.operands = .ok i) :
    step s = exec i { s with pending := rest } := by
  simp [step, State.fetch, hp, ho, hd]

/-- The instruction that a port, a variant and a phase name does what the dispatcher does at that port (R104). -/
theorem exec_writeInstr (s : State) (addr : Word) (d : Byte) :
    exec (writeInstr s.params.usartDataPort s.chip.variant s.chip.phase (portOf addr) d) s =
      .next { s with chip := s.chip.writePort s.params addr d, result := .ok .unit } := by
  unfold writeInstr Chip.writePort
  cases s.chip.variant with
  | acia => dsimp only; split_ifs <;> rfl
  | usart => cases s.chip.phase <;> dsimp only <;> split_ifs <;> rfl

/-- A port write carried out through its decode key is the dispatch of R104. -/
theorem step_portWrite (s : State) (rest : List Request) (addr : Word) (d : Byte) :
    step { s with pending := .portWrite addr d :: rest } =
      .next { s with pending := rest, chip := s.chip.writePort s.params addr d, result := .ok .unit } := by
  rw [step_of_decode rfl rfl (decode_portWrite ..)]
  exact exec_writeInstr { s with pending := rest } addr d

/-! ## The command/status port of the USART -/

theorem controlPort_ne_dataPort (dp : UsartDataPort) : controlPort dp ≠ dataPort dp := by
  cases dp <;> decide

section ControlPort

variable {p : Params} {c : Chip} {addr : Word} (hv : c.variant = .usart) (ha : portOf addr = controlPort p.usartDataPort)
include hv ha

/-- In EXPECT_MODE a byte written to the command/status port is the mode (R30, R133). -/
theorem Chip.writePort_controlPort_expectMode (hph : c.phase = .expectMode) (d : Byte) :
    c.writePort p addr d = c.writeMode d := by
  simp [Chip.writePort, hv, ha, hph, controlPort_ne_dataPort]

/-- In EXPECT_COMMAND a byte written to the command/status port is the command (R30, R134). -/
theorem Chip.writePort_controlPort_expectCommand (hph : c.phase = .expectCommand) (d : Byte) :
    c.writePort p addr d = c.writeCommand p d := by
  simp [Chip.writePort, hv, ha, hph, controlPort_ne_dataPort]

end ControlPort

/-- Settles O29: the step of the write is the dispatch, and the dispatch at the command/status port is the mode write in
one phase and the command write in the other. -/
theorem phaseDecidesTheMeaningOfAPortWrite : Obligations.PhaseDecidesTheMeaningOfAPortWrite := by
  refine ⟨fun s rest addr d hv ha => ⟨_, step_portWrite s rest addr d, fun hph => ?mode, fun hph => ?command⟩,
    fun v => rfl, fun ph => ?phases⟩
  case mode =>
    rw [Chip.writePort_controlPort_expectMode hv ha hph]
    exact ⟨rfl, rfl, rfl⟩
  case command =>
    rw [Chip.writePort_controlPort_expectCommand hv ha hph]
    exact ⟨rfl, rfl, fun hir => by simp [hir], fun hir => by simp [hir, hph]⟩
  case phases => cases ph <;> decide

/-! ## The interrupt request -/

/-- CHIP.INTERRUPT_REQUESTED returns the request as it stands and writes no state (R153). -/
theorem exec_chipInterruptRequested (s : State) :
    exec .chipInterruptRequested s = .next (s.answer (.ok (.flag s.requested))) := rfl

/-- The request in the chip's fields: a ready condition with its enable (R21, R22, R33). -/
theorem State.requested_eq (s : State) :
    s.requested = ((s.chip.rxFull && s.chip.rxIe) || ((!s.chip.txFull) && s.chip.txIe)) := rfl

/-- Settles O34: the operation answers the request, which is R33's predicate of the current fields. -/
theorem interruptRequestIsThePredicateOfTheChip : Obligations.InterruptRequestIsThePredicateOfTheChip := by
  intro s
  rw [exec_chipInterruptRequested, State.requested_eq, State.answer]

end Sys2Proof.Machine

/-! PROOFS. The dispatcher's idle accesses (spec/40_port_dispatch.md R101, R102, R105): a port cycle at a port the active
variant does not claim decodes to the idle row of its direction, and the idle rows change nothing but the result. -/

namespace Sys2Proof.Machine

/-- A port the USART does not claim is neither its data port nor its command/status port, under either assignment (R72). -/
theorem ne_dataPort_and_ne_controlPort_of_unclaimed {a : Byte} (h : Variant.claims .usart a = false)
    (dp : UsartDataPort) : a ≠ dataPort dp ∧ a ≠ controlPort dp := by
  simp only [Variant.claims, Bool.or_eq_false_iff, beq_eq_false_iff_ne] at h
  obtain ⟨h00, h01⟩ := h
  cases dp with
  | port00 => exact ⟨h00, h01⟩
  | port01 => exact ⟨h01, h00⟩

/-- A port the ACIA does not claim is neither 0x80 nor 0x81 (R8). -/
theorem ne_0x80_and_ne_0x81_of_unclaimed {a : Byte} (h : Variant.claims .acia a = false) : a ≠ 0x80 ∧ a ≠ 0x81 := by
  simpa [Variant.claims] using h

section Unclaimed

variable {v : Variant} {a : Byte} (h : v.claims a = false)
include h

/-- A read of an unclaimed port is BUS.IDLE_READ (R103). -/
theorem readInstr_of_unclaimed (dp : UsartDataPort) : readInstr dp v a = .idleRead v a := by
  cases v with
  | acia =>
    obtain ⟨hstatus, hdata⟩ := ne_0x80_and_ne_0x81_of_unclaimed h
    exact (if_neg hstatus).trans (if_neg hdata)
  | usart =>
    obtain ⟨hdata, hcontrol⟩ := ne_dataPort_and_ne_controlPort_of_unclaimed h dp
    exact (if_neg hdata).trans (if_neg hcontrol)

/-- A write to an unclaimed port is BUS.IDLE_WRITE, in either phase (R104). -/
theorem writeInstr_of_unclaimed (dp : UsartDataPort) (ph : Phase) (d : Byte) :
    writeInstr dp v ph a d = .idleWrite v a d := by
  cases v with
  | acia =>
    obtain ⟨hcontrol, hdata⟩ := ne_0x80_and_ne_0x81_of_unclaimed h
    exact (if_neg hcontrol).trans (if_neg hdata)
  | usart =>
    obtain ⟨hdata, hcontrol⟩ := ne_dataPort_and_ne_controlPort_of_unclaimed h dp
    exact (if_neg hdata).trans (if_neg hcontrol)

end Unclaimed

/-- BUS.IDLE_READ answers the idle value and changes nothing else (R101). -/
theorem exec_idleRead (v : Variant) (a : Byte) (s : State) :
    exec (.idleRead v a) s = .next (s.answer (.ok (.byte idleValue))) := rfl

/-- BUS.IDLE_WRITE changes nothing but the result (R102). -/
theorem exec_idleWrite (v : Variant) (a d : Byte) (s : State) :
    exec (.idleWrite v a d) s = .next (s.answer (.ok .unit)) := rfl

section UnclaimedStep

variable (s : State) (rest : List Request) (addr : Word) (h : s.chip.variant.claims (portOf addr) = false)
include h

/-- The step of a read at an unclaimed port is the idle read. -/
theorem step_portRead_of_unclaimed :
    step { s with pending := .portRead addr :: rest } =
      .next (State.answer { s with pending := rest } (.ok (.byte idleValue))) := by
  rw [step_of_decode rfl rfl (decode_portRead ..), readInstr_of_unclaimed h, exec_idleRead]

/-- The step of a write at an unclaimed port is the idle write. -/
theorem step_portWrite_of_unclaimed (d : Byte) :
    step { s with pending := .portWrite addr d :: rest } =
      .next (State.answer { s with pending := rest } (.ok .unit)) := by
  rw [step_of_decode rfl rfl (decode_portWrite ..), writeInstr_of_unclaimed h, exec_idleWrite]

end UnclaimedStep

/-- Settles O21: the two idle rows answer as they should, a port cycle at an unclaimed port decodes to one of them, and
each variant leaves the other's two ports unclaimed. -/
theorem unclaimedPortsAreIdle : Obligations.UnclaimedPortsAreIdle :=
  ⟨exec_idleRead, exec_idleWrite,
    fun s rest addr h => ⟨step_portRead_of_unclaimed s rest addr h, step_portWrite_of_unclaimed s rest addr h⟩,
    by decide⟩

end Sys2Proof.Machine

/-! PROOFS. The chip's host-side operations (spec/43_chip_interface.md R152): the key of CHIP.HAS_PENDING_RX selects its
row under either data-port assignment, and the operation reports the receive register without writing it. -/

namespace Sys2Proof

/-- A key decodes to what the first row it selects builds from the key and the operands (R71). -/
theorem decode_of_find?_eq_some {dp : UsartDataPort} {k : Key} {o : Operands} {r : Row} {i : Instr}
    (hrow : (rows dp).find? (fun r => r.selects k) = some r) (hbuild : r.build k o = i) : decode dp k o = .ok i := by
  rw [decode, hrow, ← hbuild]

/-- The key 0x802 selects no row before CHIP.HAS_PENDING_RX, whichever port the USART's data is at, and that row takes
nothing from the operands (R72, R80). -/
theorem decode_0x802 (dp : UsartDataPort) (o : Operands) : decode dp 0x802 o = .ok .chipHasPendingRx := by
  cases dp with
  | port00 => exact decode_of_find?_eq_some rfl rfl
  | port01 => exact decode_of_find?_eq_some rfl rfl

namespace Machine

/-- CHIP.HAS_PENDING_RX answers the occupancy of the receive register and changes nothing else (R152). -/
theorem exec_chipHasPendingRx (s : State) :
    exec .chipHasPendingRx s = .next (s.answer (.ok (.flag s.chip.rxFull))) := rfl

/-- Settles O33: the operation answers the occupancy as it stands, a constructed chip's receive register is empty, and
the key selects the operation's row. -/
theorem hasPendingRxReportsTheReceiveRegister : Obligations.HasPendingRxReportsTheReceiveRegister :=
  ⟨exec_chipHasPendingRx, Chip.construct_rxFull, decode_0x802⟩

end Machine

end Sys2Proof

/-! PROOFS. The engine's pump, drain and output buffer (spec/45_engine.md R190, R191, R210): a format-H key is decided by
the host rows alone, under either data-port assignment, and the three operations answer with what they move. -/

namespace Sys2Proof

/-- Every port row and every idle row compares bit 11 of the key and wants it clear (R72). -/
theorem bit11_of_mem_portRows_append_idleRows (dp : UsartDataPort) :
    ∀ r ∈ portRows dp ++ idleRows, r.mask.getLsbD 11 = true ∧ r.matchBits.getLsbD 11 = false := by
  cases dp <;> decide

/-- A format-H key (F = 1) selects no port row and no idle row (R70, R72). -/
theorem portRows_append_idleRows_not_select {k : Key} (hF : k.getLsbD 11 = true) (dp : UsartDataPort) :
    ∀ r ∈ portRows dp ++ idleRows, ¬ r.selects k = true := by
  intro r hr hsel
  obtain ⟨hmask, hmatch⟩ := bit11_of_mem_portRows_append_idleRows dp r hr
  have hbits : k &&& r.mask = r.matchBits := eq_of_beq hsel
  rw [← hbits, BitVec.getLsbD_and, hF, hmask] at hmatch
  cases hmatch

/-- A format-H key decodes to what the first chip, bridge or engine row it selects builds (R71, R80). -/
theorem decode_of_hostRow {k : Key} {o : Operands} {r : Row} {i : Instr} (dp : UsartDataPort)
    (hF : k.getLsbD 11 = true) (hrow : (chipRows ++ engineRows).find? (fun r => r.selects k) = some r)
    (hbuild : r.build k o = i) : decode dp k o = .ok i := by
  refine decode_of_find?_eq_some ?_ hbuild
  rw [rows, ← List.append_assoc, List.find?_append,
    List.find?_eq_none.mpr (portRows_append_idleRows_not_select hF dp), hrow, Option.none_or]

theorem decode_0x806 (dp : UsartDataPort) (o : Operands) : decode dp 0x806 o = .ok .engPump :=
  decode_of_hostRow dp rfl rfl rfl

theorem decode_0x807 (dp : UsartDataPort) (o : Operands) : decode dp 0x807 o = .ok .engDrainTx :=
  decode_of_hostRow dp rfl rfl rfl

theorem decode_0x80F (dp : UsartDataPort) (o : Operands) : decode dp 0x80F o = .ok .engDrainOutput :=
  decode_of_hostRow dp rfl rfl rfl

namespace Machine

/-! ## The pump -/

/-- With the receive register empty and a byte queued, the pump moves the oldest byte into the register (R190). -/
theorem State.pump_of_cons {s : State} {b : Byte} {rest : List Byte} (hr : s.chip.rxFull = false)
    (hf : s.hostFifo = b :: rest) :
    s.pump = { s with chip := { s.chip with rxData := b, rxFull := true }, hostFifo := rest } := by
  obtain ⟨hwait, -⟩ | ⟨b', rest', -, hf', hp⟩ := s.pump_cases
  · simp [hr, hf] at hwait
  · rw [hf] at hf'
    cases hf'
    exact hp

/-- With the receive register full or nothing queued, the pump does nothing (R190). -/
theorem State.pump_of_waits {s : State} (h : s.chip.rxFull = true ∨ s.hostFifo = []) : s.pump = s := by
  obtain ⟨-, hp⟩ | ⟨b, rest, hr, hf, -⟩ := s.pump_cases
  · exact hp
  · simp [hr, hf] at h

/-- ENG.PUMP answers nothing beside the pump (R190). -/
theorem exec_engPump (s : State) : exec .engPump s = .next (s.pump.answer (.ok .unit)) := rfl

/-- Settles O42: the operation is the pump, which moves the oldest byte or waits; the key selects the operation's row. -/
theorem pumpMovesOneHostByte : Obligations.PumpMovesOneHostByte := by
  refine fun s => ⟨fun b rest hr hf => ?moves, fun hwait => ?waits, decode_0x806⟩
  case moves => rw [exec_engPump, State.pump_of_cons hr hf, State.answer]
  case waits => rw [exec_engPump, State.pump_of_waits hwait, State.answer]

/-! ## The drain -/

/-- A byte in the transmit register goes to the end of the output buffer (R191). -/
theorem State.drainTx_of_txFull {s : State} (h : s.chip.txFull = true) :
    s.drainTx = { s with chip := { s.chip with txFull := false }, outBuf := s.outBuf ++ [s.chip.txData] } := by
  obtain ⟨hempty, -⟩ | ⟨-, hd⟩ := s.drainTx_cases
  · simp [h] at hempty
  · exact hd

/-- With the transmit register empty, the drain does nothing (R191). -/
theorem State.drainTx_of_txEmpty {s : State} (h : s.chip.txFull = false) : s.drainTx = s := by
  obtain ⟨-, hd⟩ | ⟨hfull, -⟩ := s.drainTx_cases
  · exact hd
  · simp [h] at hfull

/-- ENG.DRAIN_TX answers nothing beside the drain (R191). -/
theorem exec_engDrainTx (s : State) : exec .engDrainTx s = .next (s.drainTx.answer (.ok .unit)) := rfl

/-- Settles O43: the operation is the drain, which moves the waiting byte or does nothing; the key selects the
operation's row. -/
theorem drainMovesTheTransmittedByte : Obligations.DrainMovesTheTransmittedByte := by
  refine fun s => ⟨fun hfull => ?moves, fun hempty => ?nothing, decode_0x807⟩
  case moves => rw [exec_engDrainTx, State.drainTx_of_txFull hfull, State.answer]
  case nothing => rw [exec_engDrainTx, State.drainTx_of_txEmpty hempty, State.answer]

/-! ## The output buffer -/

/-- ENG.DRAIN_OUTPUT answers the output buffer and clears it (R210). -/
theorem exec_engDrainOutput (s : State) :
    exec .engDrainOutput s = .next { s with outBuf := [], result := .ok (.bytes s.outBuf) } := rfl

/-- Settles O58: the second call is the first one's equation at an empty buffer; the key selects the operation's row. -/
theorem drainOutputReturnsAndClears : Obligations.DrainOutputReturnsAndClears :=
  fun s => ⟨exec_engDrainOutput s, exec_engDrainOutput { s with outBuf := [], result := .ok (.bytes s.outBuf) },
    decode_0x80F⟩

end Machine

end Sys2Proof

/-! PROOFS. Encoding and decoding (spec/30_encoding.md R70 to R73, R80, R85): decoding undoes encoding, a key is
rejected exactly when it is a reserved host key, and a port cycle forms only well-formed operations. -/

namespace Sys2Proof

/-! ## The round trip -/

/-- The key of an idle read is the key that the read's port cycle forms in EXPECT_MODE (R70). -/
theorem encodeKey_idleRead (dp : UsartDataPort) (v : Variant) (a : Byte) :
    encodeKey dp (.idleRead v a) = Machine.keyOf v .expectMode false a := by
  have h : ∀ a : Byte, v.keyBit ||| a.setWidth 12 = Machine.keyOf v .expectMode false a := by
    cases v <;> decide
  exact h a

/-- The key of an idle write is the key that the write's port cycle forms in EXPECT_MODE (R70). -/
theorem encodeKey_idleWrite (dp : UsartDataPort) (v : Variant) (a d : Byte) :
    encodeKey dp (.idleWrite v a d) = Machine.keyOf v .expectMode true a := by
  have h : ∀ a : Byte, v.keyBit ||| 0x100 ||| a.setWidth 12 = Machine.keyOf v .expectMode true a := by
    cases v <;> decide
  exact h a

/-- A write key formed selects the write of R104, whatever the data byte. -/
theorem decode_keyOf_write (dp : UsartDataPort) (v : Variant) (ph : Phase) (a d : Byte) :
    decode dp (Machine.keyOf v ph true a) { Operands.zero with data := d } = .ok (Machine.writeInstr dp v ph a d) := by
  rw [decode_data dp _ d _ (Machine.decode_keyOf_write_zero ..), Machine.writeInstr_withData]

/-- An idle read of a port its variant does not claim comes back from its key (R101). -/
theorem decode_encodeKey_idleRead (dp : UsartDataPort) {v : Variant} {a : Byte} (h : v.claims a = false) :
    decode dp (encodeKey dp (.idleRead v a)) Operands.zero = .ok (.idleRead v a) := by
  rw [encodeKey_idleRead, Machine.decode_keyOf_read, Machine.readInstr_of_unclaimed h]

/-- An idle write to a port its variant does not claim comes back from its key and data byte (R102). -/
theorem decode_encodeKey_idleWrite (dp : UsartDataPort) {v : Variant} {a : Byte} (d : Byte) (h : v.claims a = false) :
    decode dp (encodeKey dp (.idleWrite v a d)) { Operands.zero with data := d } = .ok (.idleWrite v a d) := by
  rw [encodeKey_idleWrite, decode_keyOf_write, Machine.writeInstr_of_unclaimed h]

theorem wellFormed_idleRead_iff (v : Variant) (a : Byte) : (Instr.idleRead v a).WellFormed ↔ v.claims a = false := by
  simp [Instr.wellFormed]

theorem wellFormed_idleWrite_iff (v : Variant) (a d : Byte) :
    (Instr.idleWrite v a d).WellFormed ↔ v.claims a = false := by
  simp [Instr.wellFormed]

/-- Settles O1: an idle access that is well-formed comes back because no earlier row takes its port; the key of every
other row is a constant, whose first row is found by evaluation under either assignment of the USART's ports. -/
theorem decodeOfEncodeIsTheInstruction : Obligations.DecodeOfEncodeIsTheInstruction := by
  intro dp i hwf
  cases i
  case idleRead v a => exact decode_encodeKey_idleRead dp ((wellFormed_idleRead_iff v a).mp hwf)
  case idleWrite v a d => exact decode_encodeKey_idleWrite dp d ((wellFormed_idleWrite_iff v a d).mp hwf)
  all_goals
    simp only [encode, encodeKey]
    cases dp <;> exact decode_of_find?_eq_some rfl rfl

/-! ## The rejected keys -/

/-- A key is rejected exactly when it selects no row (R71, R85). -/
theorem decode_eq_error_iff (dp : UsartDataPort) (k : Key) (o : Operands) :
    decode dp k o = .error .reservedHostOp ↔ ¬ ∃ r ∈ rows dp, r.selects k = true := by
  rw [← List.find?_isSome, decode]
  cases (rows dp).find? (fun r => r.selects k) <;> simp

/-- A format-P key (F = 0) selects one of the two idle rows, by its direction bit (R72). -/
theorem exists_idleRow_selects {k : Key} (hF : k.getLsbD 11 = false) : ∃ r ∈ idleRows, r.selects k = true := by
  have hbits : k &&& 0x900 = if k.getLsbD 8 then 0x100 else 0x000 := by
    ext i hi
    cases hW : k.getLsbD 8 <;> interval_cases i <;> simp_all [BitVec.getLsbD_eq_getElem]
  simp only [idleRows, List.exists_mem_cons_iff, Row.selects, beq_iff_eq, hbits]
  cases k.getLsbD 8 <;> simp

/-- The chip, bridge and engine rows compare whole keys (R80). -/
theorem hostRow_selects_iff {r : Row} (hr : r ∈ chipRows ++ engineRows) (k : Key) :
    r.selects k = true ↔ r.matchBits = k := by
  have hmask : ∀ r ∈ chipRows ++ engineRows, r.mask = BitVec.allOnes 12 := by decide
  rw [Row.selects, hmask r hr, BitVec.and_allOnes, beq_iff_eq, eq_comm]

/-- The keys of the chip, bridge and engine rows are 0x800 to 0x810 (R80). -/
theorem exists_hostRow_selects_iff (k : Key) :
    (∃ r ∈ chipRows ++ engineRows, r.selects k = true) ↔ 0x800 ≤ k.toNat ∧ k.toNat ≤ 0x810 := by
  have hkeys : (chipRows ++ engineRows).map (·.matchBits) =
      (List.range 17).map (fun n => BitVec.ofNat 12 (0x800 + n)) := by decide
  calc (∃ r ∈ chipRows ++ engineRows, r.selects k = true)
      ↔ ∃ r ∈ chipRows ++ engineRows, r.matchBits = k :=
        exists_congr fun _ => and_congr_right fun hr => hostRow_selects_iff hr k
    _ ↔ k ∈ (List.range 17).map (fun n => BitVec.ofNat 12 (0x800 + n)) := by rw [← hkeys, List.mem_map]
    _ ↔ 0x800 ≤ k.toNat ∧ k.toNat ≤ 0x810 := by
        simp only [List.mem_map, List.mem_range]
        constructor
        · rintro ⟨n, hn, rfl⟩
          rw [BitVec.toNat_ofNat]
          omega
        · intro hk
          exact ⟨k.toNat - 0x800, by omega, BitVec.eq_of_toNat_eq (by rw [BitVec.toNat_ofNat]; omega)⟩

/-- A format-H key's fields name a reserved host call exactly when the key is past 0x810 (R80, R85). -/
theorem reserved_fields_iff {k : Key} (hF : k.getLsbD 11 = true) :
    (k.extractLsb' 5 6 ≠ 0#6 ∨ 0x10 < (k.extractLsb' 0 5).toNat) ↔ ¬ (0x800 ≤ k.toNat ∧ k.toNat ≤ 0x810) := by
  have hge : 0x800 ≤ k.toNat := by
    rw [show 11 = 12 - 1 from rfl, ← BitVec.msb_eq_getLsbD_last, BitVec.msb_eq_decide] at hF
    exact of_decide_eq_true hF
  have hlt := k.isLt
  rw [Ne, ← BitVec.toNat_inj]
  simp only [BitVec.extractLsb'_toNat, BitVec.toNat_ofNat, Nat.shiftRight_eq_div_pow]
  omega

/-- Each row is a port row or an idle row, or a host row (R72, R80). -/
theorem exists_row_selects_iff (dp : UsartDataPort) (k : Key) :
    (∃ r ∈ rows dp, r.selects k = true) ↔
      (∃ r ∈ portRows dp ++ idleRows, r.selects k = true) ∨ ∃ r ∈ chipRows ++ engineRows, r.selects k = true := by
  rw [rows, ← List.append_assoc, ← exists_or]
  exact exists_congr fun r => by rw [List.mem_append, or_and_right]

/-- Settles O3: a format-P key always has its idle row; a format-H key is decided by the host rows alone, which take the
keys 0x800 to 0x810. -/
theorem keyIsRejectedExactlyWhenReserved : Obligations.KeyIsRejectedExactlyWhenReserved := by
  intro dp k o
  rw [decode_eq_error_iff, exists_row_selects_iff]
  cases hF : k.getLsbD 11 with
  | false =>
    obtain ⟨r, hr, hsel⟩ := exists_idleRow_selects hF
    have hport : ∃ r ∈ portRows dp ++ idleRows, r.selects k = true := ⟨r, List.mem_append_right _ hr, hsel⟩
    simp only [hport, true_or, not_true_eq_false, Bool.false_eq_true, false_and]
  | true =>
    have hport : ¬ ∃ r ∈ portRows dp ++ idleRows, r.selects k = true :=
      fun ⟨r, hr, hsel⟩ => portRows_append_idleRows_not_select hF dp r hr hsel
    rw [reserved_fields_iff hF, or_iff_right hport, exists_hostRow_selects_iff, eq_self_iff_true, true_and]

/-! ## The keys that port cycles form -/

namespace Machine

/-- The USART claims no port but its data port and its command/status port (R8, R72). -/
theorem unclaimed_usart_of_ne {dp : UsartDataPort} {a : Byte} (hdata : a ≠ dataPort dp)
    (hcontrol : a ≠ controlPort dp) :
    Variant.claims .usart a = false := by
  cases dp <;> simp_all [Variant.claims, dataPort, controlPort]

/-- The ACIA claims no port but 0x80 and 0x81 (R8). -/
theorem unclaimed_acia_of_ne {a : Byte} (h80 : a ≠ 0x80) (h81 : a ≠ 0x81) : Variant.claims .acia a = false := by
  simp_all [Variant.claims]

/-- The read that a port names is well-formed: it is idle only where the variant claims nothing (R73). -/
theorem wellFormed_readInstr (dp : UsartDataPort) (v : Variant) (a : Byte) : (readInstr dp v a).WellFormed := by
  cases v with
  | acia =>
    simp only [readInstr]
    split_ifs with h80 h81
    · rfl
    · rfl
    · exact (wellFormed_idleRead_iff ..).mpr (unclaimed_acia_of_ne h80 h81)
  | usart =>
    simp only [readInstr]
    split_ifs with hdata hcontrol
    · rfl
    · rfl
    · exact (wellFormed_idleRead_iff ..).mpr (unclaimed_usart_of_ne hdata hcontrol)

/-- The write that a port and a phase name is well-formed, for the same reason. -/
theorem wellFormed_writeInstr (dp : UsartDataPort) (v : Variant) (ph : Phase) (a d : Byte) :
    (writeInstr dp v ph a d).WellFormed := by
  cases v with
  | acia =>
    simp only [writeInstr]
    split_ifs with h80 h81
    · rfl
    · rfl
    · exact (wellFormed_idleWrite_iff ..).mpr (unclaimed_acia_of_ne h80 h81)
  | usart =>
    simp only [writeInstr]
    split_ifs with hdata hcontrol
    · rfl
    · cases ph <;> rfl
    · exact (wellFormed_idleWrite_iff ..).mpr (unclaimed_usart_of_ne hdata hcontrol)

/-- Bit PH of a port cycle's key (R70): the phase, when the USART is active. -/
theorem getLsbD_keyOf_10 (v : Variant) (ph : Phase) (w : Bool) (a : Byte) :
    (keyOf v ph w a).getLsbD 10 = (v == .usart && ph == .expectCommand) := by
  simp only [keyOf, BitVec.getLsbD_append]
  simp

/-- Bit V of a port cycle's key (R70): the variant. -/
theorem getLsbD_keyOf_9 (v : Variant) (ph : Phase) (w : Bool) (a : Byte) :
    (keyOf v ph w a).getLsbD 9 = (v == .usart) := by
  simp only [keyOf, BitVec.getLsbD_append]
  simp

/-- Settles O4: the phase reaches the key only with the variant, and the instruction is the one the port names. -/
theorem portCyclesFormWellFormedOperations : Obligations.PortCyclesFormWellFormedOperations := by
  refine ⟨fun c w addr => ?_,
    fun dp c addr => ⟨_, decode_portRead dp c addr, wellFormed_readInstr ..⟩,
    fun dp c addr d => ⟨_, decode_portWrite dp c addr d, wellFormed_writeInstr ..⟩⟩
  rw [Chip.portKey_eq, getLsbD_keyOf_10, getLsbD_keyOf_9]
  rintro ⟨hPH, hV⟩
  rw [hV] at hPH
  exact Bool.false_ne_true hPH

end Machine

/-- Settles O2: each key, written out, selects its row. -/
theorem writtenOutKeysDecodeToTheirRows : Obligations.WrittenOutKeysDecodeToTheirRows := by
  unfold Obligations.WrittenOutKeysDecodeToTheirRows
  refine ⟨?_, ?_, ?_, ?_, ?_, ?_, ?_, ?_, ?_⟩ <;> exact decode_of_find?_eq_some rfl rfl

end Sys2Proof

/-! PROOFS. The step (spec/30_encoding.md R70, R71, spec/40_port_dispatch.md): what each request comes to, that the step
always answers, and that it keeps the invariant, the refusals, the parameters and, but for two calls, the variant. -/

namespace Sys2Proof.Machine

/-! ## The operations whose meaning branches -/

/-- What CHIP.CONSTRUCT can do (R81, R154): a fresh chip of the variant named, or an error that changes nothing. -/
theorem execNext_chipConstruct_cases (id : Nat) (s : State) :
    (∃ v, variantOfId id = some v ∧
        execNext (.chipConstruct id) s = { s with chip := Chip.construct v, result := .ok .unit }) ∨
      (variantOfId id = none ∧ execNext (.chipConstruct id) s = s.answer (.error (.configurationError id))) := by
  cases e : variantOfId id with
  | none => exact .inr ⟨rfl, by simp only [execNext, exec, execChipConstruct, e]⟩
  | some v => exact .inl ⟨v, rfl, by simp only [execNext, exec, execChipConstruct, e]; rfl⟩

/-- What ENG.CONFIGURE can do (R81, R205): a fresh chip of the variant named and the line false, or an error that
changes nothing. -/
theorem execNext_engConfigure_cases (id : Nat) (s : State) :
    (∃ v, variantOfId id = some v ∧
        execNext (.engConfigure id) s = { s with chip := Chip.construct v, irqLine := false, result := .ok .unit }) ∨
      (variantOfId id = none ∧ execNext (.engConfigure id) s = s.answer (.error (.configurationError id))) := by
  cases e : variantOfId id with
  | none => exact .inr ⟨rfl, by simp only [execNext, exec, execEngConfigure, e]⟩
  | some v => exact .inl ⟨v, rfl, by simp only [execNext, exec, execEngConfigure, e]; rfl⟩

/-- What ENG.RESET does with the CPU and the counter that the engine's own reset leaves (R207). -/
def State.resetBlock (s : State) (cpu : Cpu) (tick : Nat) : State :=
  { s with
    cpu := cpu
    engineTick := tick
    chip := Chip.fresh s.chip.variant
    totalCycles := 0
    irqLine := false
    hostFifo := if s.params.resetClearsHostBuffers then [] else s.hostFifo
    outBuf := if s.params.resetClearsHostBuffers then [] else s.outBuf
    result := .ok .unit }

theorem exec_engReset_of_engineReset {s : State} {cpu : Cpu} {tick : Nat}
    (h : s.engineReset = { s with cpu := cpu, engineTick := tick }) :
    exec .engReset s = .next (s.resetBlock cpu tick) := by
  simp only [exec, execEngReset, h]
  rfl

theorem execNext_engReset (s : State) : ∃ cpu tick, execNext .engReset s = s.resetBlock cpu tick := by
  obtain ⟨cpu, tick, h⟩ := s.engineReset_eq
  exact ⟨cpu, tick, (exec_eq_next (exec_engReset_of_engineReset h)).symm⟩

/-! ## What a step comes to -/

/-- Settles O5: the fetch of the next request gives its decoded instruction. -/
theorem stepRunsTheDecodedInstruction : Obligations.StepRunsTheDecodedInstruction :=
  fun _ _ _ _ hp ho hd => step_of_decode hp ho hd

/-- Settles O6: no request, an overlapping call and a reserved key are the fetch's three outcomes without an
instruction. -/
theorem stepWithoutAnInstructionOnlyMarks : Obligations.StepWithoutAnInstructionOnlyMarks := by
  refine ⟨fun s hp => ?idle, fun s sel o rest hp => ?overlapping, fun s sel o rest hp hd => ?reserved⟩
  case idle => simp only [step, State.fetch, hp]
  case overlapping =>
    simp only [step, State.fetch, hp, Request.overlaps, if_true]
    rfl
  case reserved =>
    simp only [step, State.fetch, hp, Request.overlaps, Request.key, Request.operands, hd]
    rfl

/-- The instruction that a port and a variant name does what the dispatcher does at that port (R103). -/
theorem exec_readInstr (s : State) (addr : Word) :
    exec (readInstr s.params.usartDataPort s.chip.variant (portOf addr)) s =
      .next { s with
        chip := (s.chip.readPort s.params addr).2, result := .ok (.byte (s.chip.readPort s.params addr).1) } := by
  unfold readInstr Chip.readPort
  cases s.chip.variant <;> dsimp only <;> split_ifs <;> rfl

/-- A port read carried out through its decode key is the dispatch of R103. -/
theorem step_portRead (s : State) (rest : List Request) (addr : Word) :
    step { s with pending := .portRead addr :: rest } =
      .next { s with
        pending := rest, chip := (s.chip.readPort s.params addr).2,
        result := .ok (.byte (s.chip.readPort s.params addr).1) } := by
  rw [step_of_decode rfl rfl (decode_portRead ..)]
  exact exec_readInstr { s with pending := rest } addr

/-- Settles O7: the decoded instruction is the one that the port, the variant and the phase name, and it does what the
dispatcher does there. -/
theorem keyDispatchAgreesWithThePortDispatch : Obligations.KeyDispatchAgreesWithThePortDispatch :=
  ⟨step_portRead, step_portWrite⟩

/-- The dispatcher reads only the low byte of a port address (R100). -/
theorem Chip.readPort_congr {a b : Word} (h : portOf a = portOf b) (p : Params) (c : Chip) :
    c.readPort p a = c.readPort p b := by
  simp only [Chip.readPort, h]

theorem Chip.writePort_congr {a b : Word} (h : portOf a = portOf b) (p : Params) (c : Chip) (d : Byte) :
    c.writePort p a d = c.writePort p b d := by
  simp only [Chip.writePort, h]

/-- Settles O8: the step of a port cycle is the dispatch, which reads only the low byte of the address. -/
theorem highAddressByteIsIgnored : Obligations.HighAddressByteIsIgnored := by
  intro s rest a b hab
  have h : portOf a = portOf b := hab
  exact ⟨by rw [step_portRead, step_portRead, Chip.readPort_congr h],
    fun d => by rw [step_portWrite, step_portWrite, Chip.writePort_congr h]⟩

/-- Settles O9: a step without an instruction marks at most, and every instruction's meaning answers. -/
theorem everyStepAnswersANextState : Obligations.EveryStepAnswersANextState := by
  intro s
  rcases State.fetch_cases s with ⟨-, hf⟩ | ⟨r, rest, -, ⟨-, hf⟩ | ⟨-, -, hf⟩ | ⟨i, -, -, hf⟩⟩ <;> simp only [step, hf]
  · exact ⟨_, rfl⟩
  · exact ⟨_, rfl⟩
  · exact ⟨_, rfl⟩
  · exact ⟨_, exec_next i _⟩

/-! ## What a decoded request is -/

/-- What a request that is not turned away decodes to: the access that its port names, or the instruction that a host
row builds from its operands. -/
theorem decode_request_cases {dp : UsartDataPort} {c : Chip} {r : Request} {i : Instr} (ho : r.overlaps = false)
    (hd : decode dp (r.key c) r.operands = .ok i) :
    (∃ addr, r = .portRead addr ∧ i = readInstr dp c.variant (portOf addr)) ∨
      (∃ addr d, r = .portWrite addr d ∧ i = writeInstr dp c.variant c.phase (portOf addr) d) ∨
      ∃ sel o row, r = .host sel o false ∧ row ∈ chipRows ++ engineRows ∧ row.selects (hostKey sel) = true ∧
        i = row.build (hostKey sel) o := by
  cases r with
  | portRead addr => exact .inl ⟨addr, rfl, Except.ok.inj (hd.symm.trans (decode_portRead dp c addr))⟩
  | portWrite addr d =>
    exact .inr (.inl ⟨addr, d, rfl, Except.ok.inj (hd.symm.trans (decode_portWrite dp c addr d))⟩)
  | host sel o overlapping =>
    obtain ⟨row, hmem, hsel, hi⟩ := decode_hostKey hd
    cases ho
    exact .inr (.inr ⟨sel, o, row, rfl, hmem, hsel, hi⟩)

/-- A host row builds a host call, whatever the operands (R80). -/
theorem isHost_build_of_mem_hostRows :
    ∀ r ∈ chipRows ++ engineRows, ∀ k o, Laws.KeyFormat.isHost (r.build k o) = true := by
  simp [chipRows, engineRows, Laws.KeyFormat.isHost]

/-! ## The invariant -/

/-- An instruction writes a register that one variant lacks only under the other variant (R24, R35): the ACIA's control
register, and the USART's mode and command registers. -/
def RegisterOwned (v : Variant) (i : Instr) : Prop :=
  (∀ d, i = .aciaWrControl d → v = .acia) ∧ (∀ d, i = .usartWrMode d → v = .usart) ∧
    (∀ d, i = .usartWrCommand d → v = .usart)

theorem registerOwned_readInstr (dp : UsartDataPort) (v : Variant) (a : Byte) :
    RegisterOwned v (readInstr dp v a) := by
  unfold readInstr
  cases v <;> dsimp only <;> split_ifs <;> exact ⟨nofun, nofun, nofun⟩

theorem registerOwned_writeInstr (dp : UsartDataPort) (v : Variant) (ph : Phase) (a d : Byte) :
    RegisterOwned v (writeInstr dp v ph a d) := by
  unfold writeInstr
  cases v with
  | acia => exact ⟨fun _ _ => rfl, by dsimp only; split_ifs <;> nofun, by dsimp only; split_ifs <;> nofun⟩
  | usart => exact ⟨by cases ph <;> dsimp only <;> split_ifs <;> nofun, fun _ _ => rfl, fun _ _ => rfl⟩

theorem registerOwned_of_isHost {i : Instr} (h : Laws.KeyFormat.isHost i = true) (v : Variant) : RegisterOwned v i := by
  refine ⟨?_, ?_, ?_⟩ <;> rintro d rfl <;> cases h

/-- What a request decodes to writes only registers that the chip's variant has. -/
theorem registerOwned_of_decode {dp : UsartDataPort} {c : Chip} {r : Request} {i : Instr} (ho : r.overlaps = false)
    (hd : decode dp (r.key c) r.operands = .ok i) : RegisterOwned c.variant i := by
  rcases decode_request_cases ho hd with ⟨addr, -, rfl⟩ | ⟨addr, d, -, rfl⟩ | ⟨sel, o, row, -, hrow, -, rfl⟩
  · exact registerOwned_readInstr ..
  · exact registerOwned_writeInstr ..
  · exact registerOwned_of_isHost (isHost_build_of_mem_hostRows row hrow _ _) _

/-- Settles O10: a request turned away leaves its mark and its name together; an instruction keeps the invariant, since
what decodes writes only the registers of the active variant. -/
theorem everyStepKeepsTheInvariant : Obligations.EveryStepKeepsTheInvariant := by
  intro s t hs hstep
  rcases step_next_cases hstep with ⟨rfl, -⟩ | ⟨r, rest, -, ⟨c, rfl⟩ | ⟨i, ho, hd, rfl⟩⟩
  · exact hs
  · exact State.inv_answer (State.inv_refuse (s := { s with pending := rest }) hs c) _
  · exact inv_exec (s := { s with pending := rest }) hs (registerOwned_of_decode ho hd)

/-! ## The parameters and the marks -/

/-- No parameter changes, no mark is cleared, no refusal is forgotten (R38, R43, R232). -/
structure State.MarksKept (s t : State) : Prop where
  params : t.params = s.params
  refused : s.refused = true → t.refused = true
  refusals : ∃ l, t.refusals = s.refusals ++ l

theorem State.MarksKept.of_eq {s t : State} (hp : t.params = s.params) (hr : t.refused = s.refused)
    (hl : t.refusals = s.refusals) : s.MarksKept t :=
  ⟨hp, hr ▸ id, [], by rw [hl, List.append_nil]⟩

theorem State.MarksKept.trans {s t u : State} (h : s.MarksKept t) (k : t.MarksKept u) : s.MarksKept u := by
  obtain ⟨l, hl⟩ := h.refusals
  obtain ⟨l', hl'⟩ := k.refusals
  exact ⟨k.params.trans h.params, k.refused ∘ h.refused, l ++ l', by rw [hl', hl, List.append_assoc]⟩

theorem State.MarksKept.answer {s t : State} (h : s.MarksKept t) (r : Result) : s.MarksKept (t.answer r) :=
  ⟨h.params, h.refused, h.refusals⟩

theorem State.Kept.marksKept {s t : State} (h : s.Kept t) : s.MarksKept t := ⟨h.params, h.refused, h.refusals⟩

theorem State.MarksKept.refuseRequest (s : State) (c : RefusalCode) : s.MarksKept (s.refuseRequest c) :=
  ⟨rfl, fun _ => rfl, [c], rfl⟩

/-- No operation changes a parameter, clears the mark or forgets a refusal; only the bridge and the scheduling step add
one. -/
theorem execNext_marksKept (i : Instr) (s : State) : s.MarksKept (execNext i s) := by
  cases i
  case chipConstruct id =>
    rcases execNext_chipConstruct_cases id s with ⟨v, -, e⟩ | ⟨-, e⟩ <;> rw [e] <;> exact .of_eq rfl rfl rfl
  case engConfigure id =>
    rcases execNext_engConfigure_cases id s with ⟨v, -, e⟩ | ⟨-, e⟩ <;> rw [e] <;> exact .of_eq rfl rfl rfl
  case engReset =>
    obtain ⟨cpu, tick, e⟩ := execNext_engReset s
    exact e ▸ .of_eq rfl rfl rfl
  case bridgeEvaluate => exact s.kept_bridge.marksKept.answer _
  case engPump => exact s.kept_pump.marksKept.answer _
  case engDrainTx => exact s.kept_drainTx.marksKept.answer _
  case engRun m => exact (s.kept_run m).marksKept.answer _
  case engStepOne => exact (s.kept_pump.trans s.pump.kept_core).marksKept.answer _
  all_goals exact .of_eq rfl rfl rfl

/-- No step changes a parameter, clears the mark or forgets a refusal. -/
theorem step_marksKept {s t : State} (h : step s = .next t) : s.MarksKept t := by
  rcases step_next_cases h with ⟨rfl, -⟩ | ⟨r, rest, -, hnext⟩
  · exact .of_eq rfl rfl rfl
  · have hpop : s.MarksKept { s with pending := rest } := .of_eq rfl rfl rfl
    rcases hnext with ⟨c, rfl⟩ | ⟨i, -, -, rfl⟩
    · exact hpop.trans (.refuseRequest _ c)
    · exact hpop.trans (execNext_marksKept i _)

/-- Settles O12: a request turned away adds its refusal, and no instruction takes one back. -/
theorem noStepClearsTheRefusedMark : Obligations.NoStepClearsTheRefusedMark :=
  fun _ _ h => ⟨(step_marksKept h).refused, (step_marksKept h).refusals⟩

/-- Settles O13: no instruction's meaning writes the parameters. -/
theorem noStepChangesTheParameters : Obligations.NoStepChangesTheParameters := fun _ _ h => (step_marksKept h).params

/-! ## The variant -/

/-- Only CHIP.CONSTRUCT and ENG.CONFIGURE change the variant, and then to the one their identifier names (R20, R81). -/
theorem execNext_variant (i : Instr) (s : State) :
    (execNext i s).chip.variant = s.chip.variant ∨
      ∃ id v, (i = .chipConstruct id ∨ i = .engConfigure id) ∧ variantOfId id = some v ∧
        (execNext i s).chip.variant = v := by
  cases i
  case chipConstruct id =>
    rcases execNext_chipConstruct_cases id s with ⟨v, hid, e⟩ | ⟨-, e⟩ <;> rw [e]
    · exact .inr ⟨id, v, .inl rfl, hid, rfl⟩
    · exact .inl rfl
  case engConfigure id =>
    rcases execNext_engConfigure_cases id s with ⟨v, hid, e⟩ | ⟨-, e⟩ <;> rw [e]
    · exact .inr ⟨id, v, .inr rfl, hid, rfl⟩
    · exact .inl rfl
  case aciaWrControl d => exact .inl (by simp [execNext, exec, execAciaWrControl, Chip.writeControl_eq])
  case chipPushRx b => exact .inl (Chip.pushRx_variant ..)
  case chipTakePendingTx => exact .inl (Chip.takeTx_variant ..)
  case bridgeEvaluate => exact .inl s.kept_bridge.variant
  case engPump => exact .inl s.kept_pump.variant
  case engDrainTx => exact .inl s.kept_drainTx.variant
  case engRun m => exact .inl (s.kept_run m).variant
  case engStepOne => exact .inl (s.kept_pump.trans s.pump.kept_core).variant
  all_goals exact .inl rfl

theorem isHost_readInstr (dp : UsartDataPort) (v : Variant) (a : Byte) :
    Laws.KeyFormat.isHost (readInstr dp v a) = false := by
  unfold readInstr
  cases v <;> dsimp only <;> split_ifs <;> rfl

theorem isHost_writeInstr (dp : UsartDataPort) (v : Variant) (ph : Phase) (a d : Byte) :
    Laws.KeyFormat.isHost (writeInstr dp v ph a d) = false := by
  unfold writeInstr
  cases v <;> cases ph <;> dsimp only <;> split_ifs <;> rfl

theorem hostKey_injective : Function.Injective hostKey := by
  intro a b h
  have hlow : (1#1 ++ a).extractLsb' 0 11 = (1#1 ++ b).extractLsb' 0 11 := congrArg (BitVec.extractLsb' 0 11) h
  rwa [BitVec.extractLsb'_append_eq_right, BitVec.extractLsb'_append_eq_right] at hlow

/-- A request that decodes to a host call is a host call, and the row whose key it forms builds the
instruction (R80). -/
theorem request_of_isHost {dp : UsartDataPort} {c : Chip} {r : Request} {i : Instr} (ho : r.overlaps = false)
    (hd : decode dp (r.key c) r.operands = .ok i) (hi : Laws.KeyFormat.isHost i = true) :
    ∃ sel o row, r = .host sel o false ∧ row ∈ chipRows ++ engineRows ∧ row.matchBits = hostKey sel ∧
      row.build (hostKey sel) o = i := by
  rcases decode_request_cases ho hd with ⟨addr, -, rfl⟩ | ⟨addr, d, -, rfl⟩ | ⟨sel, o, row, hr, hrow, hsel, rfl⟩
  · rw [isHost_readInstr] at hi
    cases hi
  · rw [isHost_writeInstr] at hi
    cases hi
  · exact ⟨sel, o, row, hr, hrow, (hostRow_selects_iff hrow _).mp hsel, rfl⟩

/-- The rows that build CHIP.CONSTRUCT and ENG.CONFIGURE have the keys 0x804 and 0x808, and take the identifier
(R80, R81). -/
theorem hostRow_of_build_construct : ∀ r ∈ chipRows ++ engineRows, ∀ (k : Key) (o : Operands) (id : Nat),
    r.build k o = .chipConstruct id ∨ r.build k o = .engConfigure id →
      (r.matchBits = hostKey 0x004#11 ∨ r.matchBits = hostKey 0x008#11) ∧ o.variantId = id := by
  simp [chipRows, engineRows, hostKey]

/-- Settles O14: only CHIP.CONSTRUCT and ENG.CONFIGURE change the variant, and only the host calls 0x004 and 0x008
decode to them. -/
theorem variantChangesOnlyByConfigureOrConstruct : Obligations.VariantChangesOnlyByConfigureOrConstruct := by
  intro s t hstep hne
  rcases step_next_cases hstep with ⟨rfl, -⟩ | ⟨r, rest, hp, ⟨c, rfl⟩ | ⟨i, ho, hd, rfl⟩⟩
  · exact absurd rfl hne
  · exact absurd rfl hne
  · obtain ⟨id, v, hi, hid, hv⟩ := (execNext_variant i { s with pending := rest }).resolve_left hne
    have hhost : Laws.KeyFormat.isHost i = true := by rcases hi with rfl | rfl <;> rfl
    obtain ⟨sel, o, row, rfl, hrow, hkey, rfl⟩ := request_of_isHost ho hd hhost
    obtain ⟨hsel, rfl⟩ := hostRow_of_build_construct row hrow _ o id hi
    rw [hkey, hostKey_injective.eq_iff, hostKey_injective.eq_iff] at hsel
    refine ⟨o, rest, ?_, ?_⟩
    · rcases hsel with rfl | rfl
      · exact .inl hp
      · exact .inr hp
    · rw [hv]
      rcases variantOfId_cases o.variantId with ⟨h0, e⟩ | ⟨h1, e⟩ | ⟨-, e⟩
      · exact .inl ⟨h0, Option.some.inj (hid.symm.trans e)⟩
      · exact .inr ⟨h1, Option.some.inj (hid.symm.trans e)⟩
      · cases hid.symm.trans e

end Sys2Proof.Machine

/-! PROOFS. What the operations leave unchanged (spec/00_scope.md R13, spec/10_state.md R24, R37, spec/20_memory.md R58,
spec/40_port_dispatch.md R106): the chip's operations, the CPU and memory, the interrupt enables and the phase. -/

namespace Sys2Proof.Machine

/-! ## The chip's operations -/

/-- What a port cycle or a chip operation can do to the session: another chip, and a result. -/
theorem execNext_of_chipOnly {i : Instr} (hi : i.chipOnly = true) (s : State) :
    ∃ c r, execNext i s = { s with chip := c, result := r } := by
  cases i
  case bridgeEvaluate | engPump | engDrainTx | engConfigure | engLoadProgram | engReset | engRun | engStepOne |
      engPushInputByte | engPushInputString | engDrainOutput | engQueryState => cases hi
  case chipConstruct id =>
    rcases execNext_chipConstruct_cases id s with ⟨v, -, e⟩ | ⟨-, e⟩ <;> rw [e] <;> exact ⟨_, _, rfl⟩
  all_goals exact ⟨_, _, rfl⟩

/-- Settles O15: the next state is the session with another chip and a result. -/
theorem chipOperationsChangeOnlyTheChip : Obligations.ChipOperationsChangeOnlyTheChip := by
  intro i s t hi h
  obtain ⟨c, r, e⟩ := execNext_of_chipOnly hi s
  rw [exec_eq_next h, e]
  exact ⟨rfl, fun _ => rfl, rfl, rfl, rfl, rfl, rfl, rfl, rfl, rfl, rfl⟩

/-! ## The CPU and memory -/

/-- Which operations keep the CPU: all but the ones that run it, take an interrupt or reset it (R37). -/
theorem execNext_cpu {i : Instr} (hi : i.runsCpu = false) (hr : i ≠ .engReset) (s : State) :
    (execNext i s).cpu = s.cpu := by
  cases i
  case bridgeEvaluate | engRun | engStepOne => cases hi
  case engReset => exact absurd rfl hr
  case chipConstruct id =>
    rcases execNext_chipConstruct_cases id s with ⟨v, -, e⟩ | ⟨-, e⟩ <;> simp [e]
  case engConfigure id =>
    rcases execNext_engConfigure_cases id s with ⟨v, -, e⟩ | ⟨-, e⟩ <;> simp [e]
  case engPump => exact s.pump_cpu
  case engDrainTx => exact s.drainTx_cpu
  all_goals rfl

/-- Which operations keep memory: all but the ones that run the CPU or take an interrupt, and the load (R58). -/
theorem execNext_mem {i : Instr} (hi : i.runsCpu = false) (hl : ∀ bytes origin, i ≠ .engLoadProgram bytes origin)
    (s : State) : (execNext i s).mem = s.mem := by
  cases i
  case bridgeEvaluate | engRun | engStepOne => cases hi
  case engLoadProgram bytes origin => exact absurd rfl (hl bytes origin)
  case chipConstruct id =>
    rcases execNext_chipConstruct_cases id s with ⟨v, -, e⟩ | ⟨-, e⟩ <;> simp [e]
  case engConfigure id =>
    rcases execNext_engConfigure_cases id s with ⟨v, -, e⟩ | ⟨-, e⟩ <;> simp [e]
  case engReset =>
    obtain ⟨cpu, tick, e⟩ := execNext_engReset s
    exact e ▸ rfl
  case engPump => exact s.pump_mem
  case engDrainTx => exact s.drainTx_mem
  all_goals rfl

/-- Settles O16: outside the operations that run the CPU, the reset alone writes the CPU and the load alone memory. -/
theorem cpuAndMemoryAreWrittenOnlyByTheNamedOperations :
    Obligations.CpuAndMemoryAreWrittenOnlyByTheNamedOperations := by
  intro i s t hi h
  rw [exec_eq_next h]
  exact ⟨fun hr => execNext_cpu hi hr s, fun hl a => congrArg (·.read8 a) (execNext_mem hi hl s)⟩

/-! ## The interrupt enables and the phase -/

/-- The interrupt enables and the phase as before (R24, R135). -/
def Chip.SameModes (c d : Chip) : Prop := d.rxIe = c.rxIe ∧ d.txIe = c.txIe ∧ d.phase = c.phase

theorem Chip.sameModes_pushRx (c : Chip) (b : Byte) : c.SameModes (c.pushRx b) := by
  rcases c.pushRx_cases b with ⟨-, e⟩ | ⟨-, e⟩ <;> rw [e] <;> exact ⟨rfl, rfl, rfl⟩

theorem Chip.sameModes_takeTx (c : Chip) : c.SameModes c.takeTx.2 := by
  rcases c.takeTx_cases with ⟨-, e⟩ | ⟨-, e⟩ <;> rw [e] <;> exact ⟨rfl, rfl, rfl⟩

theorem State.sameModes_pump (s : State) : s.chip.SameModes s.pump.chip := by
  rcases s.pump_cases with ⟨-, e⟩ | ⟨b, rest, -, -, e⟩ <;> rw [e] <;> exact ⟨rfl, rfl, rfl⟩

theorem State.sameModes_drainTx (s : State) : s.chip.SameModes s.drainTx.chip := by
  rcases s.drainTx_cases with ⟨-, e⟩ | ⟨-, e⟩ <;> rw [e] <;> exact ⟨rfl, rfl, rfl⟩

/-- Settles O17: the other operations move data through the chip's buffers, or do not touch it. -/
theorem enablesAndPhaseAreWrittenOnlyByTheNamedOperations :
    Obligations.EnablesAndPhaseAreWrittenOnlyByTheNamedOperations := by
  intro i s t hi h
  rw [exec_eq_next h]
  cases i
  case aciaWrControl | usartWrMode | usartWrCommand | chipConstruct | engConfigure | engReset | engRun | engStepOne =>
    cases hi
  case chipPushRx b => exact s.chip.sameModes_pushRx b
  case chipTakePendingTx => exact s.chip.sameModes_takeTx
  case bridgeEvaluate => exact s.bridge_chip ▸ ⟨rfl, rfl, rfl⟩
  case engPump => exact s.sameModes_pump
  case engDrainTx => exact s.sameModes_drainTx
  all_goals exact ⟨rfl, rfl, rfl⟩

end Sys2Proof.Machine

/-! PROOFS. The two chips' registers and the chip's host side (spec/41_acia.md, spec/42_usart.md,
spec/43_chip_interface.md): the status bytes bit by bit, the data, control, mode and command registers, and the four
operations of the host. -/

namespace Sys2Proof.Machine

/-! ## The status bytes -/

/-- The bits of an ACIA status byte (R26). -/
theorem aciaStatus_bits : ∀ irq tdre rdrf : Bool,
    let b : Byte := BitVec.ofBool irq ++ 0#5 ++ BitVec.ofBool tdre ++ BitVec.ofBool rdrf
    b.getLsbD 0 = rdrf ∧ b.getLsbD 1 = tdre ∧ b.extractLsb' 2 5 = 0#5 ∧ b.getLsbD 7 = irq := by
  decide

/-- The bits of a USART status byte (R31). -/
theorem usartStatus_bits : ∀ rxRdy txRdy : Bool,
    let b : Byte := 0#6 ++ BitVec.ofBool rxRdy ++ BitVec.ofBool txRdy
    b.getLsbD 0 = txRdy ∧ b.getLsbD 1 = rxRdy ∧ b.extractLsb' 2 6 = 0#6 := by
  decide

/-- ACIA.RD_STATUS answers the status byte and changes nothing else (R110). -/
theorem exec_aciaRdStatus (s : State) : exec .aciaRdStatus s = .next (s.answer (.ok (.byte s.chip.aciaStatus))) := rfl

/-- USART.RD_STATUS answers the status byte and changes nothing else (R131). -/
theorem exec_usartRdStatus (s : State) :
    exec .usartRdStatus s = .next (s.answer (.ok (.byte s.chip.usartStatus))) := rfl

/-- Settles O22: the byte answered is R26's, whose bits are the ready conditions and the request. -/
theorem aciaStatusRead : Obligations.AciaStatusRead := fun s => ⟨_, exec_aciaRdStatus s, aciaStatus_bits ..⟩

/-- Settles O23: the byte answered is R31's, whose bits are the ready conditions. -/
theorem usartStatusRead : Obligations.UsartStatusRead := fun s => ⟨_, exec_usartRdStatus s, usartStatus_bits ..⟩

/-! ## The data registers -/

/-- Settles O24: both data reads are the one read of the receive register. -/
theorem dataReadsReturnTheReceiveRegister : Obligations.DataReadsReturnTheReceiveRegister := fun _ => ⟨rfl, rfl⟩

/-- Settles O25: both data writes are the one write of the transmit register. -/
theorem dataWritesFillTheTransmitRegister : Obligations.DataWritesFillTheTransmitRegister := fun _ _ => ⟨rfl, rfl⟩

/-! ## The control, mode and command registers -/

/-- The transmit enable of a control byte is TC = 01 (R25, R82). -/
theorem aciaTxIe_eq : ∀ d : Byte, aciaTxIe d = (!d.getLsbD 6 && d.getLsbD 5) := by decide

/-- The transmit enable of a command byte, under the parameter (R29, R84). -/
theorem usartTxIe_eq (p : UsartTxIe) (d : Byte) : usartTxIe p d = (p == .txEn && d.getLsbD 0) := by
  cases p <;> rfl

/-- ACIA.WR_CONTROL is the chip's control write (R112). -/
theorem exec_aciaWrControl (d : Byte) (s : State) :
    exec (.aciaWrControl d) s = .next { s with chip := s.chip.writeControl d, result := .ok .unit } := rfl

/-- Settles O26: the control write field by field, with the soft reset and without it. -/
theorem aciaControlWrite : Obligations.AciaControlWrite := by
  refine fun d s => ⟨fun hsr => ?softReset, fun hsr => ?plain⟩
  case softReset =>
    have h : aciaSoftReset d = true := hsr
    rw [exec_aciaWrControl, Chip.writeControl_eq, aciaTxIe_eq]
    simp only [h, if_true]
    rfl
  case plain =>
    have h : aciaSoftReset d = false := hsr
    rw [exec_aciaWrControl, Chip.writeControl_eq, aciaTxIe_eq]
    simp only [h, Bool.false_eq_true, if_false]
    rfl

/-- Settles O27: the mode write stores the byte and moves the phase on. -/
theorem usartModeWrite : Obligations.UsartModeWrite := fun _ _ => rfl

/-- USART.WR_COMMAND is the chip's command write under the session's parameters (R134). -/
theorem exec_usartWrCommand (d : Byte) (s : State) :
    exec (.usartWrCommand d) s = .next { s with chip := s.chip.writeCommand s.params d, result := .ok .unit } := rfl

/-- Settles O28: the command write's fields, the transmit enable as the parameter says. -/
theorem usartCommandWrite : Obligations.UsartCommandWrite := by
  intro d s
  rw [exec_usartWrCommand, Chip.writeCommand, usartTxIe_eq]
  rfl

/-! ## The recovery sequence -/

/-- A zero written to the command/status port leaves EXPECT_COMMAND from either phase, as a mode byte or as a command
without internal reset, and does not touch the receive register (R272). -/
theorem Chip.writePort_controlPort_zero {p : Params} {c : Chip} {addr : Word} (hv : c.variant = .usart)
    (ha : portOf addr = controlPort p.usartDataPort) :
    (c.writePort p addr 0x00).phase = .expectCommand ∧ (c.writePort p addr 0x00).rxFull = c.rxFull ∧
      (c.writePort p addr 0x00).rxData = c.rxData := by
  cases hph : c.phase with
  | expectMode =>
    rw [Chip.writePort_controlPort_expectMode hv ha hph]
    exact ⟨rfl, rfl, rfl⟩
  | expectCommand =>
    rw [Chip.writePort_controlPort_expectCommand hv ha hph]
    exact ⟨hph, rfl, rfl⟩

/-- A run goes on from the state its first step answers. -/
theorem run_succ_of_step {s t : State} (h : step s = .next t) (k : Nat) :
    Sys2Proof.core.run (k + 1) s = Sys2Proof.core.run k t := by
  have h' : Sys2Proof.core.step s = .next t := h
  simp only [Host.Core.run, h']

/-- A run of port writes to one address is the dispatch of each in turn (R104). -/
theorem run_portWrites (addr : Word) (ds : List Byte) (s : State) :
    ∃ r, Sys2Proof.core.run ds.length { s with pending := ds.map (.portWrite addr) } =
      .next { s with
        pending := [], chip := ds.foldl (fun c d => c.writePort s.params addr d) s.chip, result := r } := by
  induction ds generalizing s with
  | nil => exact ⟨s.result, rfl⟩
  | cons d ds ih =>
    obtain ⟨r, hr⟩ := ih { s with chip := s.chip.writePort s.params addr d, result := .ok .unit }
    exact ⟨r, (run_succ_of_step (step_portWrite s (ds.map (.portWrite addr)) addr d) ds.length).trans hr⟩

/-- Settles O30: the three zeros bring either phase to EXPECT_COMMAND and keep the receive register; there 0x40 is a
command with internal reset and no enable. -/
theorem usartRecoverySequenceEndsInExpectMode : Obligations.UsartRecoverySequenceEndsInExpectMode := by
  intro s addr hv haddr
  have ha : portOf addr = controlPort s.params.usartDataPort := haddr
  have hv1 := (Chip.writePort_variant s.params s.chip addr 0x00).trans hv
  have hv2 := (Chip.writePort_variant s.params _ addr 0x00).trans hv1
  have hv3 := (Chip.writePort_variant s.params _ addr 0x00).trans hv2
  obtain ⟨-, hfull1, hdata1⟩ := Chip.writePort_controlPort_zero hv ha
  obtain ⟨-, hfull2, hdata2⟩ := Chip.writePort_controlPort_zero hv1 ha
  obtain ⟨hph3, hfull3, hdata3⟩ := Chip.writePort_controlPort_zero hv2 ha
  obtain ⟨r, hrun⟩ := run_portWrites addr [0x00, 0x00, 0x00, 0x40] s
  refine ⟨_, hrun, ?_⟩
  simp only [List.foldl_cons, List.foldl_nil]
  rw [Chip.writePort_controlPort_expectCommand hv3 ha hph3]
  refine ⟨rfl, rfl, rfl, ?_, hfull3.trans (hfull2.trans hfull1), hdata3.trans (hdata2.trans hdata1)⟩
  rw [Chip.writeCommand_txIe, usartTxIe_eq]
  exact Bool.and_false _

/-! ## The chip's host side -/

/-- CHIP.PUSH_RX is the chip's `push_rx` (R150). -/
theorem exec_chipPushRx (b : Byte) (s : State) :
    exec (.chipPushRx b) s = .next { s with chip := s.chip.pushRx b, result := .ok .unit } := rfl

theorem Chip.pushRx_of_rxFull {c : Chip} (h : c.rxFull = true) (b : Byte) :
    c.pushRx b = { c with overrunCount := c.overrunCount + 1 } := by
  simp [Chip.pushRx, h]

theorem Chip.pushRx_of_rxEmpty {c : Chip} (h : c.rxFull = false) (b : Byte) :
    c.pushRx b = { c with rxData := b, rxFull := true } := by
  simp [Chip.pushRx, h]

/-- Settles O31: `push_rx` stores into an empty register and counts the drop at a full one. -/
theorem pushRxStoresOrCountsTheDrop : Obligations.PushRxStoresOrCountsTheDrop :=
  fun b s => ⟨fun hempty => by rw [exec_chipPushRx, Chip.pushRx_of_rxEmpty hempty],
    fun hfull => by rw [exec_chipPushRx, Chip.pushRx_of_rxFull hfull]⟩

/-- CHIP.TAKE_PENDING_TX is the chip's `take_pending_tx` (R151). -/
theorem exec_chipTakePendingTx (s : State) :
    exec .chipTakePendingTx s =
      .next { s with chip := s.chip.takeTx.2, result := .ok (.optByte s.chip.takeTx.1) } := rfl

theorem Chip.takeTx_of_txFull {c : Chip} (h : c.txFull = true) :
    c.takeTx = (some c.txData, { c with txFull := false }) := by
  simp [Chip.takeTx, h]

theorem Chip.takeTx_of_txEmpty {c : Chip} (h : c.txFull = false) : c.takeTx = (none, c) := by
  simp [Chip.takeTx, h]

theorem Chip.takeTx_txIe (c : Chip) : c.takeTx.2.txIe = c.txIe := c.sameModes_takeTx.2.1

theorem decode_0x801 (dp : UsartDataPort) (o : Operands) : decode dp 0x801 o = .ok .chipTakePendingTx :=
  decode_of_hostRow dp rfl rfl rfl

/-- With the transmit register empty, the transmit enable alone makes the request (R33). -/
theorem Chip.interruptRequested_of_txIe {c : Chip} (h : c.txFull = false) (hie : c.txIe = true) :
    c.interruptRequested = true := by
  simp [Chip.interruptRequested, Chip.txReady, h, hie]

/-- Settles O32: the operation in its two cases; after it the register is empty, from which the status bits, the request
and the second call follow. -/
theorem takePendingTxEmptiesTheTransmitRegister : Obligations.TakePendingTxEmptiesTheTransmitRegister := by
  intro s
  have hempty := s.chip.takeTx_txFull
  obtain ⟨hacia, husart⟩ := Chip.status_txReady hempty
  refine ⟨fun hfull => ?full, fun hnone => ?none, _, _, exec_chipTakePendingTx s, exec_chipTakePendingTx _, hacia,
    husart, fun hie => ?_, ?_, ?_, decode_0x801⟩
  case full => rw [exec_chipTakePendingTx, Chip.takeTx_of_txFull hfull]
  case none => rw [exec_chipTakePendingTx, Chip.takeTx_of_txEmpty hnone]
  · exact Chip.interruptRequested_of_txIe hempty ((Chip.takeTx_txIe _).trans hie)
  · rw [Chip.takeTx_of_txEmpty hempty]
  · rw [Chip.takeTx_of_txEmpty hempty]

/-- What CHIP.TAKE_PENDING_TX returns, in the terms of the signals (R40). -/
theorem Chip.takeTx_fst (c : Chip) : c.takeTx.1 = if c.txFull then some c.txData else none := by
  rcases c.takeTx_cases with ⟨h, e⟩ | ⟨h, e⟩ <;> rw [e, h] <;> rfl

/-- Settles O35: each signal is the field that its operation answers. -/
theorem signalsSayWhatTheOperationsReturn : Obligations.SignalsSayWhatTheOperationsReturn :=
  fun s => ⟨_, _, _, exec_chipHasPendingRx s, exec_chipTakePendingTx s, exec_chipInterruptRequested s, rfl,
    by rw [Chip.takeTx_fst]; rfl, rfl⟩

/-- An identifier from 2 upwards names no variant (R81). -/
theorem variantOfId_of_two_le {id : Nat} (h : 2 ≤ id) : variantOfId id = none := by
  rcases variantOfId_cases id with ⟨h0, -⟩ | ⟨h1, -⟩ | ⟨-, e⟩
  · omega
  · omega
  · exact e

/-- Settles O36: the identifiers 0 and 1 construct their chip fresh, any other is the error. -/
theorem chipConstructionValues : Obligations.ChipConstructionValues := by
  refine fun s => ⟨fun id v hid => ?supported, fun id hid => ?unsupported⟩
  case supported => rcases hid with ⟨rfl, rfl⟩ | ⟨rfl, rfl⟩ <;> rfl
  case unsupported =>
    simp only [exec, execChipConstruct, variantOfId_of_two_le hid]
    rfl

end Sys2Proof.Machine

/-! PROOFS. Memory and the interrupt bridge (spec/20_memory.md R50 to R52, spec/44_interrupt_bridge.md R170 to R172):
the 16-bit store, the rows of the bridge's table, and the bytes that the injection pushes. -/

namespace Sys2Proof.Machine

/-! ## The 16-bit store -/

theorem Memory.read8_write16_low {m : Memory} (h : m.wf = true) (a v : Word) : (m.write16 a v).read8 a = v.low := by
  rw [Memory.read8_write16 h, if_neg (Word.succ_ne a), if_pos rfl]

theorem Memory.read8_write16_high {m : Memory} (h : m.wf = true) (a v : Word) :
    (m.write16 a v).read8 (a + 1) = v.high := by
  rw [Memory.read8_write16 h, if_pos rfl]

theorem Memory.read8_write16_other {m : Memory} (h : m.wf = true) {a b : Word} (v : Word) (hlow : b ≠ a)
    (hhigh : b ≠ a + 1) : (m.write16 a v).read8 b = m.read8 b := by
  rw [Memory.read8_write16 h, if_neg hhigh, if_neg hlow]

/-- Settles O37: the reads after a 16-bit write, byte by byte and as a word. -/
theorem wordStoresAreLittleEndianAndWrap : Obligations.WordStoresAreLittleEndianAndWrap :=
  fun _ a v h => ⟨Memory.read8_write16_low h a v, Memory.read8_write16_high h a v,
    fun _ hlow hhigh => Memory.read8_write16_other h v hlow hhigh, Memory.read16_write16 h a v, Memory.wf_write16 h a v⟩

/-! ## The rows of the bridge's table -/

/-- BRIDGE.EVALUATE answers the evaluation (R170). -/
theorem exec_bridgeEvaluate (s : State) :
    exec .bridgeEvaluate s = .next (s.bridge.2.answer (.ok (.evaluation s.bridge.1.1 s.bridge.1.2))) := rfl

/-- The condition of an injection, in the session's fields (R171, R178). -/
theorem State.injects_iff (s : State) :
    s.injects = true ↔ s.cpu.im = .im1 ∧ s.cpu.iff1 = true ∧ s.requested = true ∧
      (s.params.honourEiShadow = false ∨ s.cpu.lastWasEi = false) := by
  simp [State.injects, State.eiShadowBlocks, and_assoc]

/-- The condition of the mode-0 refusal, in the session's fields (R176). -/
theorem State.im0Pending_iff (s : State) :
    s.im0Pending = true ↔ s.cpu.im = .im0 ∧ s.cpu.iff1 = true ∧ s.requested = true := by
  simp [State.im0Pending, and_assoc]

theorem State.bridge_of_injects {s : State} (h : s.injects = true) :
    s.bridge = ((13, true), { s.injectRst38 with irqLine := false }) := by
  simp [State.bridge, h, injectionCycles]

theorem State.bridge_of_im0Pending {s : State} (h : s.im0Pending = true) :
    s.bridge = ((0, false), State.refuse { s with irqLine := false } .im0Unmodelled) := by
  have hi : s.injects = false := by
    rw [← Bool.not_eq_true, State.injects_iff, ((State.im0Pending_iff s).mp h).1]
    exact fun hinj => nomatch hinj.1
  simp [State.bridge, hi, h]

/-- Where the bridge neither injects nor refuses, it only drives the line (R177). -/
theorem State.bridge_of_quiet {s : State} (hi : ¬ s.injects = true) (hz : ¬ s.im0Pending = true) :
    s.bridge = ((0, false), { s with irqLine := s.irqLevel }) := by
  rw [State.bridge, if_neg hi, if_neg hz]

/-- The line is driven in mode 2 only, by the request (R177). -/
theorem State.irqLevel_of_im2 {s : State} (h : s.cpu.im = .im2) : s.irqLevel = s.requested := by
  simp [State.irqLevel, h]

theorem State.irqLevel_of_ne_im2 {s : State} (h : s.cpu.im ≠ .im2) : s.irqLevel = false := by
  simp [State.irqLevel, h]

/-- Settles O38: each row is one of the bridge's three branches. -/
theorem bridgeDecoderTable : Obligations.BridgeDecoderTable := by
  refine fun s => ⟨fun him hiff hreq hei => ?injected, fun him hmasked => ?masked, fun him => ?line,
    fun him hiff hreq => ?refusal, fun him hmasked => ?quiet⟩
  case injected =>
    rw [exec_bridgeEvaluate, State.bridge_of_injects (s.injects_iff.mpr ⟨him, hiff, hreq, hei⟩)]
    rfl
  case masked =>
    have hi : ¬ s.injects = true := by
      rw [State.injects_iff]
      rintro ⟨-, hiff, hreq, hei⟩
      simp_all
    rw [exec_bridgeEvaluate, State.bridge_of_quiet hi (by simp [State.im0Pending_iff, him]),
      State.irqLevel_of_ne_im2 (by simp [him]), State.answer]
  case line =>
    have hi : ¬ s.injects = true := by simp [State.injects_iff, him]
    have hz : ¬ s.im0Pending = true := by simp [State.im0Pending_iff, him]
    rw [exec_bridgeEvaluate, State.bridge_of_quiet hi hz, State.irqLevel_of_im2 him, State.answer]
  case refusal =>
    rw [exec_bridgeEvaluate, State.bridge_of_im0Pending (s.im0Pending_iff.mpr ⟨him, hiff, hreq⟩)]
    rfl
  case quiet =>
    have hz : ¬ s.im0Pending = true := by
      rw [State.im0Pending_iff]
      rintro ⟨-, hiff, hreq⟩
      simp_all
    rw [exec_bridgeEvaluate, State.bridge_of_quiet (by simp [State.injects_iff, him]) hz,
      State.irqLevel_of_ne_im2 (by simp [him]), State.answer]

/-! ## The push of the injection -/

theorem Word.sub_two_add_one (a : Word) : a - 2 + 1 = a - 1 := by bv_omega

/-- A 16-bit push below a stack pointer, byte by byte: the low byte at S-2, the high byte at S-1, every other byte as
before, and the word read back at S-2 (R51, R52). -/
theorem Memory.push_bytes {m : Memory} (h : m.wf = true) (sp v : Word) :
    (m.write16 (sp - 2) v).read8 (sp - 2) = v.low ∧ (m.write16 (sp - 2) v).read8 (sp - 1) = v.high ∧
      (∀ a : Word, a ≠ sp - 2 → a ≠ sp - 1 → (m.write16 (sp - 2) v).read8 a = m.read8 a) ∧
      (m.write16 (sp - 2) v).read16 (sp - 2) = v := by
  rw [← Word.sub_two_add_one]
  exact ⟨Memory.read8_write16_low h _ v, Memory.read8_write16_high h _ v,
    fun _ hlow hhigh => Memory.read8_write16_other h v hlow hhigh, Memory.read16_write16 h _ v⟩

/-- Settles O39: the bridge's next state is the injection, whose memory is the push of PC. -/
theorem injectionPushesTheReturnAddress : Obligations.InjectionPushesTheReturnAddress := by
  intro s hm him hiff hreq hei
  obtain ⟨hlow, hhigh, hother, hword⟩ := Memory.push_bytes hm s.cpu.sp s.cpu.pc
  refine ⟨_, exec_bridgeEvaluate s, ?_⟩
  rw [State.bridge_of_injects (s.injects_iff.mpr ⟨him, hiff, hreq, hei⟩)]
  exact ⟨hlow, hhigh, hother, hword, rfl, rfl, rfl⟩

end Sys2Proof.Machine

/-! PROOFS. Session creation and reset (spec/10_state.md R41, R42, spec/45_engine.md R207, spec/70_reset_and_hazards.md
R260, R261). -/

namespace Sys2Proof.Machine

/-- A new session on a canonical memory meets the invariant: its chip is fresh and nothing was refused. -/
theorem State.inv_create (p : Params) {mem : Memory} (h : mem.wf = true) : (State.create p mem).Inv :=
  (State.inv_iff _).mpr ⟨h, Chip.good_construct p p.initialVariant, rfl⟩

/-- Settles O11: the reset state is a new session on the empty memory. -/
theorem newSessionsMeetTheInvariant : Obligations.NewSessionsMeetTheInvariant :=
  ⟨fun p _ h => State.inv_create p h, State.inv_create Params.default rfl⟩

theorem Chip.aciaStatus_fresh (v : Variant) : (Chip.fresh v).aciaStatus = 0x02 := by
  cases v <;> decide

theorem Chip.usartStatus_fresh (v : Variant) : (Chip.fresh v).usartStatus = 0x01 := by
  cases v <;> decide

/-- Settles O18: the values are those of `State.create`, `Chip.fresh`, `Cpu.reset` and `Params.default`. -/
theorem sessionCreationValues : Obligations.SessionCreationValues := by
  refine ⟨fun p mem => ⟨rfl, Chip.aciaStatus_fresh _, Chip.usartStatus_fresh _, rfl, rfl, rfl, rfl, rfl, rfl,
    fun hengine => ?_⟩, rfl, rfl⟩
  have hcpu : (State.create p mem).cpu = Cpu.reset := by rw [State.create, hengine, initialCpu]
  rw [hcpu]
  exact ⟨rfl, rfl, rfl, rfl⟩

theorem State.engineReset_of_vectorZ80 {s : State} (h : s.params.engine = .vectorZ80) :
    s.engineReset = { s with cpu := Cpu.reset } := by
  simp only [State.engineReset, h]

/-- Settles O19: on either engine ENG.RESET is the block's reset with what the engine's own reset leaves. -/
theorem engineResetEffect : Obligations.EngineResetEffect := by
  refine fun s => ⟨fun hengine => ?vectorZ80, fun _ => ?external⟩
  case vectorZ80 => exact exec_engReset_of_engineReset (State.engineReset_of_vectorZ80 hengine)
  case external =>
    obtain ⟨cpu, tick, h⟩ := s.engineReset_eq
    exact ⟨cpu, tick, exec_engReset_of_engineReset h⟩

/-- Settles O20: the fresh chip requests nothing, so the bridge only lowers the line. -/
theorem noInterruptRightAfterReset : Obligations.NoInterruptRightAfterReset := by
  intro s
  obtain ⟨cpu, tick, h⟩ := s.engineReset_eq
  have hreq : (s.resetBlock cpu tick).requested = false := Chip.interruptRequested_fresh _
  refine ⟨_, _, exec_engReset_of_engineReset h, exec_bridgeEvaluate _, ?_⟩
  rw [State.bridge_of_not_requested hreq]
  exact ⟨rfl, rfl, rfl, hreq, rfl, rfl, fun _ => rfl, rfl, rfl, rfl⟩

end Sys2Proof.Machine

/-! PROOFS. The host operations (spec/45_engine.md R205, R206, R208, R209, R212). -/

namespace Sys2Proof.Machine

/-- Settles O54: the identifiers 0 and 1 re-create the chip, any other is the error. -/
theorem configureRecreatesTheChip : Obligations.ConfigureRecreatesTheChip := by
  refine fun s => ⟨fun id v hid => ?supported, fun id hid => ?unsupported⟩
  case supported => rcases hid with ⟨rfl, rfl⟩ | ⟨rfl, rfl⟩ <;> rfl
  case unsupported =>
    simp only [exec, execEngConfigure, variantOfId_of_two_le hid]
    rfl

/-! ## The load -/

/-- A load that copies anything stays below the top of memory (R206). -/
theorem add_loadCount_le {bytes : List Byte} {origin : Nat} (h : 0 < loadCount bytes origin) :
    origin + loadCount bytes origin ≤ 0x10000 := by
  unfold loadCount loadRoom at *
  split_ifs at * with ho <;> omega

theorem loadCount_le_length (bytes : List Byte) (origin : Nat) : loadCount bytes origin ≤ bytes.length :=
  min_le_left _ _

/-- The memory after a load, byte by byte: inside the copied range the byte of the program, outside it the old one. -/
theorem Memory.read8_load {m : Memory} (h : m.wf = true) (bytes : List Byte) (origin : Nat) (a : Word) :
    (m.copy origin (bytes.take (loadCount bytes origin))).read8 a =
      if origin ≤ a.toNat ∧ a.toNat < origin + loadCount bytes origin then bytes.getD (a.toNat - origin) 0x00
      else m.read8 a := by
  rcases Nat.eq_zero_or_pos (loadCount bytes origin) with hz | hpos
  · rw [hz, if_neg (by omega)]
    rfl
  · have hle := loadCount_le_length bytes origin
    have hlen : (bytes.take (loadCount bytes origin)).length = loadCount bytes origin := List.length_take_of_le hle
    rw [Memory.read8_copy h _ _ (hlen.symm ▸ add_loadCount_le hpos)]
    by_cases hin : origin ≤ a.toNat ∧ a.toNat < origin + loadCount bytes origin
    · rw [if_pos hin, dif_pos ⟨hin.1, by omega⟩, List.getElem_take, List.getD_eq_getElem _ _ (by omega)]
    · rw [if_neg hin, dif_neg (by omega)]

/-- Settles O55: the operation copies `loadCount` bytes, and the memory after it is known byte by byte. -/
theorem loadProgramCopiesAndTruncates : Obligations.LoadProgramCopiesAndTruncates := by
  rintro bytes origin n s hm rfl
  refine ⟨s.mem.copy origin (bytes.take (loadCount bytes origin)), rfl, fun i hi => ?copied, fun a ha => ?kept⟩
  case copied =>
    have hi' : i < loadCount bytes origin := hi
    have htop := add_loadCount_le (Nat.zero_lt_of_lt hi')
    have haddr : (BitVec.ofNat 16 (origin + i)).toNat = origin + i := by
      rw [BitVec.toNat_ofNat]
      omega
    have hread := Memory.read8_load hm bytes origin (BitVec.ofNat 16 (origin + i))
    rwa [Memory.read8, haddr, if_pos (by omega), Nat.add_sub_cancel_left] at hread
  case kept =>
    have ha' : a.toNat < origin ∨ origin + loadCount bytes origin ≤ a.toNat := ha
    rw [Memory.read8_load hm, if_neg (by omega)]

/-! ## The queue and the snapshot -/

/-- Settles O56: the operation appends the byte. -/
theorem pushInputByteQueuesTheByte : Obligations.PushInputByteQueuesTheByte := fun _ _ => rfl

/-- The model's UTF-8 bytes of a code point are those of Lean's encoder: the two take the same branch, and differ in
taking the high bits modulo their field, which the size of the code point makes idle (D27). -/
theorem utf8OfCodePoint_eq (c : Char) :
    utf8OfCodePoint c.toNat = (String.utf8EncodeChar c).map UInt8.toBitVec := by
  have hmax : c.val.toNat < 0x110000 := by
    rcases c.valid with h | ⟨-, h⟩
    · exact Nat.lt_trans h (by decide)
    · exact h
  simp only [String.utf8EncodeChar, utf8OfCodePoint, Char.toNat, ← Nat.lt_succ_iff (m := c.val.toNat),
    Nat.succ_eq_add_one, Nat.reduceAdd]
  generalize c.val.toNat = n at hmax
  have hbyte {a b : Nat} (hab : a = b) : BitVec.ofNat 8 a = (UInt8.ofNat b).toBitVec := hab ▸ rfl
  split_ifs <;> simp only [List.map_cons, List.map_nil, List.cons.injEq, and_true]
  · exact hbyte rfl
  · exact ⟨hbyte (by omega), hbyte (by omega)⟩
  · exact ⟨hbyte (by omega), hbyte (by omega), hbyte (by omega)⟩
  · exact ⟨hbyte (by omega), hbyte (by omega), hbyte (by omega), hbyte (by omega)⟩

/-- Settles O57: the text is encoded character by character. -/
theorem pushInputStringQueuesTheUtf8Bytes : Obligations.PushInputStringQueuesTheUtf8Bytes := by
  intro text s
  have hchar : encodeChar s.params.textEncoding = fun c => (String.utf8EncodeChar c).map UInt8.toBitVec :=
    funext utf8OfCodePoint_eq
  rw [List.map_flatMap, ← hchar]
  rfl

/-- Settles O59: the operation answers the snapshot and writes nothing. -/
theorem queryStateOnlyReports : Obligations.QueryStateOnlyReports := fun _ => rfl

end Sys2Proof.Machine

/-! PROOFS. The scheduling step (spec/45_engine.md R193 to R200, spec/44_interrupt_bridge.md R174, R180):
ENG.STEP_ONE where the bridge takes the step, where the CPU steps, and with the Z80 engine of the vectors. -/

namespace Sys2Proof.Machine

/-! ## One iteration -/

/-- ENG.STEP_ONE answers the T-states of one iteration (R199). -/
theorem exec_engStepOne (s : State) :
    exec .engStepOne s = .next (s.iteration.2.answer (.ok (.natural s.iteration.1))) := rfl

/-- The pump writes the chip and the FIFO, nothing else. -/
theorem State.pump_eq (s : State) : ∃ c f, s.pump = { s with chip := c, hostFifo := f } := by
  rcases s.pump_cases with ⟨-, e⟩ | ⟨b, rest, -, -, e⟩ <;> rw [e] <;> exact ⟨_, _, rfl⟩

/-- The drain writes the chip and the output, nothing else. -/
theorem State.drainTx_eq (s : State) : ∃ c o, s.drainTx = { s with chip := c, outBuf := o } := by
  rcases s.drainTx_cases with ⟨-, e⟩ | ⟨-, e⟩ <;> rw [e] <;> exact ⟨_, _, rfl⟩

/-- An iteration whose parts (b) and (c) come to `n` T-states and the session `v`: the drain and the account follow. -/
theorem State.iteration_of_advance {s v : State} {n : Nat} (h : s.pump.advance = (n, v)) :
    s.iteration = (n, { v.drainTx with totalCycles := s.totalCycles + n }) := by
  have htotal : v.totalCycles = s.totalCycles := by
    rw [← s.pump_totalCycles, ← s.pump.advance_total, h]
  simp only [State.iteration, State.core, h, State.drainTx_totalCycles, htotal]

/-- What the engine's program comes to, when it takes any time at all, is the CPU step (R195). -/
theorem State.cpuStep_of_exec {u v : State} {n : Nat}
    (h : u.engineProgram.exec { u with engineTick := u.engineTick + 1 } = (n, v)) (hn : n ≠ 0) :
    u.cpuStep = (n, v) := by
  have houtcome : u.engineOutcome = (n, v) := h
  simp [State.cpuStep, houtcome, hn]

/-! ## The injection takes the step -/

/-- A request after the pump: made before it, or by the byte it moves into the receive register (R33, R190). -/
theorem State.requested_pump_of_cons {s : State} (hr : s.chip.rxFull = false) (hie : s.chip.rxIe = true)
    (hf : s.hostFifo ≠ []) : s.pump.requested = true := by
  obtain ⟨b, rest, hf'⟩ := List.exists_cons_of_ne_nil hf
  simp [State.pump_of_cons hr hf', State.requested_eq, hie]

/-- The pump leaves the CPU and the parameters, so the injection waits only for the request. -/
theorem State.injects_pump {s : State} (him : s.cpu.im = .im1) (hiff : s.cpu.iff1 = true)
    (hei : s.params.honourEiShadow = false ∨ s.cpu.lastWasEi = false) (hreq : s.pump.requested = true) :
    s.pump.injects = true := by
  rw [State.injects_iff, State.pump_cpu, State.pump_params]
  exact ⟨him, hiff, hreq, hei⟩

/-- An iteration that injects (R172, R174, R196): the CPU and memory are those of the injection, and the engine is not
called. -/
theorem State.iteration_of_injects {s : State} (h : s.pump.injects = true) :
    ∃ c o f, s.iteration = (13, { s with
      chip := c, outBuf := o, hostFifo := f, irqLine := false, totalCycles := s.totalCycles + 13,
      cpu := { s.cpu with pc := 0x0038, sp := s.cpu.sp - 2, iff1 := false, iff2 := false, halted := false },
      mem := s.mem.write16 (s.cpu.sp - 2) s.cpu.pc }) := by
  have hadv : s.pump.advance = (13, { s.pump.injectRst38 with irqLine := false }) := by
    simp [State.advance, State.bridge_of_injects h]
  obtain ⟨c, f, hp⟩ := s.pump_eq
  obtain ⟨c', o, hd⟩ := State.drainTx_eq { s.pump.injectRst38 with irqLine := false }
  refine ⟨c', o, f, ?_⟩
  rw [State.iteration_of_advance hadv, hd, hp]
  rfl

/-- Settles O40: the request stands after the pump, so the step is the injection. -/
theorem stepOneTakesThePendingInterrupt : Obligations.StepOneTakesThePendingInterrupt := by
  intro s hm him hiff hei hreq
  have hpump : s.pump.requested = true := by
    rcases hreq with h | ⟨hr, hie, hf⟩
    · exact State.requested_pump h
    · exact State.requested_pump_of_cons hr hie hf
  obtain ⟨c, o, f, hit⟩ := State.iteration_of_injects (State.injects_pump him hiff hei hpump)
  obtain ⟨hlow, hhigh, hother, -⟩ := Memory.push_bytes hm s.cpu.sp s.cpu.pc
  refine ⟨_, exec_engStepOne s, ?_⟩
  rw [hit]
  exact ⟨rfl, rfl, hlow, hhigh, hother, rfl, rfl, rfl, rfl⟩

/-! ## The CPU takes the step -/

theorem State.bridge_result (s : State) : s.bridge.2.result = s.result := by
  rcases s.bridge_cases with ⟨-, e⟩ | ⟨-, -, e⟩ | ⟨-, -, e⟩ <;> rw [e] <;> rfl

theorem State.pump_result (s : State) : s.pump.result = s.result := by
  obtain ⟨c, f, e⟩ := s.pump_eq
  rw [e]

/-- Settles O45: the evaluation returned is (0, false), so the bridge does not take the step, and `u` is its session. -/
theorem stepOneRunsOneCpuStep : Obligations.StepOneRunsOneCpuStep := by
  intro s u v n hbridge hresult hexec hn
  have hstate : s.pump.bridge.2.answer (.ok (.evaluation s.pump.bridge.1.1 s.pump.bridge.1.2)) =
      u.answer (.ok (.evaluation 0 false)) := Host.Outcome.next.inj hbridge
  have hskip : s.pump.bridge.1.2 = false := by
    have h := congrArg State.result hstate
    simp only [State.answer_result, Result.ok.injEq, Value.evaluation.injEq] at h
    exact h.2
  have hu : s.pump.bridge.2 = u := by
    have h := congrArg (fun t => t.answer s.result) hstate
    have hb : s.pump.bridge.2.result = s.result := by rw [State.bridge_result, State.pump_result]
    calc s.pump.bridge.2 = s.pump.bridge.2.answer s.result := by rw [← hb]; rfl
      _ = u.answer s.result := h
      _ = u := by rw [← hresult]; rfl
  have hadv : s.pump.advance = (n, v) := by
    simp only [State.advance, hskip, hu, Bool.false_eq_true, if_false]
    exact State.cpuStep_of_exec hexec hn
  rw [exec_engStepOne, State.iteration_of_advance hadv]
  rfl

/-! ## Every step -/

/-- Settles O44: each part of the answer is a law of the pump or of the core. -/
theorem stepOneCompletes : Obligations.StepOneCompletes := by
  intro s
  have hkept := s.kept_pump.trans s.pump.kept_core
  refine ⟨_, _, exec_engStepOne s, rfl, ?total, ?mark, s.pump.core_txFull, ?out, ?fifo, hkept.params, hkept.variant,
    hkept.pending⟩
  case total => exact s.pump.core_total.trans (by rw [s.pump_totalCycles]; rfl)
  case mark => exact (Nat.eq_zero_or_pos s.pump.core.1).symm.imp_right State.core_zero
  case out => exact s.pump_outBuf ▸ s.pump.core_out
  case fifo =>
    have hcore : s.iteration.2.hostFifo = s.pump.hostFifo := s.pump.core_fifo
    rw [State.answer_hostFifo, hcore]
    rcases s.pump_cases with ⟨-, e⟩ | ⟨b, rest, -, hf, e⟩ <;> rw [e]
    · exact .inl rfl
    · exact .inr ⟨b, hf⟩

end Sys2Proof.Machine

/-! PROOFS. ENG.RUN (spec/45_engine.md R197, R198): the evaluated loop against the loop without a count, its account and
its three ends, and the runs of a halted CPU. -/

namespace Sys2Proof.Machine

/-- ENG.RUN answers the T-states of the run (R198). -/
theorem exec_engRun (m : Nat) (s : State) :
    exec (.engRun m) s = .next ((s.run m).2.answer (.ok (.natural (s.run m).1))) := rfl

/-- The halt stop, in the session's fields (R198). -/
theorem State.stopsHalted_iff (s : State) :
    s.stopsHalted = true ↔ s.cpu.halted = true ∧ s.wakePossible = false := by
  simp [State.stopsHalted]

/-- What can wake a halted CPU, in the session's fields (R197). -/
theorem State.wakePossible_iff (s : State) :
    s.wakePossible = true ↔ s.cpu.iff1 = true ∧ s.requested = true ∧ (s.cpu.im = .im1 ∨ s.cpu.im = .im2) := by
  simp [State.wakePossible, and_assoc]

/-! ## The loop -/

/-- With the budget reached the loop ends, whatever turns are left (R198). -/
theorem State.runLoop_of_budget {m acc : Nat} (h : ¬ acc < m) (fuel : Nat) (s : State) :
    State.runLoop m fuel acc s = (acc, s) := by
  cases fuel with
  | zero => rfl
  | succ fuel => rw [State.runLoop, if_neg h]

/-- The loop of R198 allows what the evaluated loop computes, where the turns left are enough for the budget: a turn
that goes on adds at least 1. -/
theorem RunLoop.of_runLoop {m fuel acc : Nat} (hfuel : m ≤ acc + fuel) (s : State) :
    RunLoop m acc s (State.runLoop m fuel acc s).1 (State.runLoop m fuel acc s).2 := by
  induction fuel generalizing acc s with
  | zero => exact .budget (by omega)
  | succ fuel ih =>
    rcases State.runLoop_succ m fuel acc s with ⟨hb, e⟩ | ⟨hb, hh, e⟩ | ⟨hb, hh, hz, e⟩ | ⟨hb, hh, hz, e⟩ <;> rw [e]
    · exact .budget hb
    · obtain ⟨hhalt, hwake⟩ := (State.stopsHalted_iff _).mp hh
      exact .halted hb hhalt hwake
    · rw [← Bool.not_eq_true, State.stopsHalted_iff] at hh
      exact .refusedStep hb hh hz
    · rw [← Bool.not_eq_true, State.stopsHalted_iff] at hh
      exact .iterate hb hh hz (ih (by omega) _)

/-- The evaluated loop computes what the loop of R198 allows, with any number of turns that is enough for the budget. -/
theorem RunLoop.runLoop_eq {m acc n : Nat} {s t : State} (h : RunLoop m acc s n t) :
    ∀ fuel, m ≤ acc + fuel → State.runLoop m fuel acc s = (n, t) := by
  induction h with
  | budget hb => exact fun fuel _ => State.runLoop_of_budget hb fuel _
  | halted hb hhalt hwake =>
    rintro (_ | fuel) hfuel
    · omega
    · rw [State.runLoop, if_pos hb, if_pos ((State.stopsHalted_iff _).mpr ⟨hhalt, hwake⟩), State.haltStop]
  | refusedStep hb hh hz =>
    rintro (_ | fuel) hfuel
    · omega
    · rw [State.runLoop, if_pos hb, if_neg (hh ∘ (State.stopsHalted_iff _).mp), if_pos hz]
  | iterate hb hh hz _ ih =>
    rintro (_ | fuel) hfuel
    · omega
    · rw [State.runLoop, if_pos hb, if_neg (hh ∘ (State.stopsHalted_iff _).mp), if_neg hz, ih fuel (by omega)]

/-- Settles O47: a budget of `m` allows `m` turns, so neither loop can do what the other cannot. -/
theorem runFollowsItsLoop : Obligations.RunFollowsItsLoop := by
  refine fun m n s t => ⟨fun h => ?_, fun h => h.runLoop_eq m (by omega)⟩
  have hloop := RunLoop.of_runLoop (m := m) (fuel := m) (acc := 0) (by omega) s
  have hrun : State.runLoop m m 0 s = (n, t) := h
  rwa [hrun] at hloop

/-! ## The account and the ends -/

theorem State.haltStop_cpu (s : State) : s.haltStop.cpu = s.cpu := by
  rcases s.haltStop_cases with ⟨-, e⟩ | ⟨-, e⟩ <;> simp [e]

theorem State.haltStop_chip (s : State) : s.haltStop.chip = s.chip := by
  rcases s.haltStop_cases with ⟨-, e⟩ | ⟨-, e⟩ <;> simp [e]

theorem State.haltStop_totalCycles (s : State) : s.haltStop.totalCycles = s.totalCycles := by
  rcases s.haltStop_cases with ⟨-, e⟩ | ⟨-, e⟩ <;> simp [e]

theorem State.wakePossible_haltStop (s : State) : s.haltStop.wakePossible = s.wakePossible := by
  simp only [State.wakePossible, State.requested, State.haltStop_cpu, State.haltStop_chip]

/-- One turn's account (R194): the pump adds nothing, the core what it returns. -/
theorem State.pump_core_totalCycles (s : State) : s.pump.core.2.totalCycles = s.totalCycles + s.pump.core.1 := by
  rw [State.core_total, State.pump_totalCycles]

/-- The loop adds to `total_cycles` what it adds to its accumulator (R194, R198). -/
theorem RunLoop.totalCycles {m acc n : Nat} {s t : State} (h : RunLoop m acc s n t) :
    t.totalCycles + acc = s.totalCycles + n := by
  induction h with
  | budget => rfl
  | @halted acc s _ _ _ =>
    have hstop : s.pump.haltStop.totalCycles = s.totalCycles := by
      rw [State.haltStop_totalCycles, State.pump_totalCycles]
    rw [State.haltStop] at hstop
    rw [hstop]
  | refusedStep _ _ hz => rw [State.pump_core_totalCycles, hz, Nat.add_zero]
  | iterate _ _ _ _ ih =>
    rw [State.pump_core_totalCycles] at ih
    omega

/-- The loop ends at its budget, at a halt that nothing can end, or at a refusal (R198, log 15). -/
theorem RunLoop.ends {m acc n : Nat} {s t : State} (h : RunLoop m acc s n t) :
    m ≤ n ∨ (t.cpu.halted = true ∧ t.wakePossible = false) ∨ t.refused = true := by
  induction h with
  | budget hb => exact .inl (Nat.le_of_not_lt hb)
  | @halted acc s _ hhalt hwake =>
    have hstop : s.pump.haltStop.cpu.halted = true ∧ s.pump.haltStop.wakePossible = false := by
      rw [State.haltStop_cpu, State.wakePossible_haltStop]
      exact ⟨hhalt, hwake⟩
    exact .inr (.inl hstop)
  | refusedStep _ _ hz => exact .inr (.inr (State.core_zero hz))
  | iterate _ _ _ _ ih => exact ih

/-- The evaluated run is a run of the loop. -/
theorem State.runLoop_run (m : Nat) (s : State) : RunLoop m 0 s (s.run m).1 (s.run m).2 :=
  RunLoop.of_runLoop (by omega) s

/-- Settles O46: the account and the ends are the loop's, the rest is what every part of a step keeps. -/
theorem runCompletes : Obligations.RunCompletes := by
  intro m s
  have hkept := s.kept_run m
  have hloop := s.runLoop_run m
  exact ⟨_, _, exec_engRun m s, rfl, hloop.totalCycles, hloop.ends, hkept.out, hkept.fifo, hkept.params, hkept.variant,
    hkept.pending⟩

/-- Settles O48: with no budget the loop makes no turn. -/
theorem runOfZeroChangesNothing : Obligations.RunOfZeroChangesNothing := fun _ => rfl

/-- Settles O51: each turn ends with the drain, and the pump and the halt stop do not touch the transmit register. -/
theorem runKeepsTheTransmitRegisterEmpty : Obligations.RunKeepsTheTransmitRegisterEmpty := by
  intro m s t hs h
  have hrun : (s.run m).2.chip.txFull = false :=
    State.runLoop_induct (P := fun u => u.chip.txFull = false) (fun u hu => u.pump_txFull.trans hu)
      (fun u hu => by rw [State.haltStop_chip, hu]) (fun u _ => u.core_txFull) m m 0 s hs
  have ht : t.chip.txFull = false := exec_eq_next h ▸ hrun
  exact ⟨ht, Chip.status_txReady ht⟩

/-! ## The runs of a halted CPU -/

/-- A run that finds the CPU halted for good returns after the pump (R198). -/
theorem State.run_of_stopsHalted {s : State} (h : s.pump.stopsHalted = true) {m : Nat} (hm : 0 < m) :
    s.run m = (0, s.pump.haltStop) := by
  obtain ⟨fuel, rfl⟩ := Nat.exists_eq_succ_of_ne_zero hm.ne'
  rw [State.run, State.runLoop, if_pos hm, if_pos h]

/-- A run whose first iteration uses up the budget is that iteration (R198). -/
theorem State.run_of_iteration {s : State} (h : s.pump.stopsHalted = false) {m : Nat} (hm : 0 < m)
    (hle : m ≤ s.iteration.1) : s.run m = s.iteration := by
  obtain ⟨fuel, rfl⟩ := Nat.exists_eq_succ_of_ne_zero hm.ne'
  have hne : s.pump.core.1 ≠ 0 := Nat.ne_of_gt (Nat.lt_of_lt_of_le hm hle)
  have hle' : ¬ 0 + s.pump.core.1 < fuel + 1 := by
    rw [Nat.zero_add]
    exact Nat.not_lt.mpr hle
  rw [State.run, State.runLoop, if_pos hm, if_neg (by simp [h]), if_neg hne, State.runLoop_of_budget hle', Nat.zero_add]
  rfl

/-- Settles O49: the CPU is halted for good, masked or in mode 0, and the halt stop says which. -/
theorem haltedRunWithoutWakeReturnsAtOnce : Obligations.HaltedRunWithoutWakeReturnsAtOnce := by
  refine fun m s hm hhalt => ⟨fun hmasked => ?masked, fun him hiff hreq => ?mode0⟩
  case masked =>
    have hstop : s.pump.stopsHalted = true := by
      rw [State.stopsHalted_iff, ← Bool.not_eq_true, State.wakePossible_iff, State.pump_cpu]
      refine ⟨hhalt, fun ⟨hiff, hreq, _⟩ => ?_⟩
      simp [hiff, hreq] at hmasked
    have hquiet : ¬ s.pump.im0Pending = true := by
      rw [State.im0Pending_iff, State.pump_cpu]
      rintro ⟨-, hiff, hreq⟩
      simp [hiff, hreq] at hmasked
    rw [exec_engRun, State.run_of_stopsHalted hstop hm, State.haltStop, if_neg hquiet, State.answer]
  case mode0 =>
    have hstop : s.pump.stopsHalted = true := by
      rw [State.stopsHalted_iff, ← Bool.not_eq_true, State.wakePossible_iff, State.pump_cpu, him]
      exact ⟨hhalt, fun ⟨_, _, hmode⟩ => by simp at hmode⟩
    have hpending : s.pump.im0Pending = true := by
      rw [State.im0Pending_iff, State.pump_cpu]
      exact ⟨him, hiff, hreq⟩
    have hrefusals : s.pump.refusals = s.refusals := by
      obtain ⟨c, f, e⟩ := s.pump_eq
      rw [e]
    rw [exec_engRun, State.run_of_stopsHalted hstop hm, State.haltStop, if_pos hpending, ← hrefusals]
    rfl

/-- Settles O50: the request can wake the CPU, so the run's first turn is the injection, whose 13 T-states reach the
budget. -/
theorem haltedRunWakesOnARequest : Obligations.HaltedRunWakesOnARequest := by
  intro m s hm hm13 hwf hhalt him hiff hei hreq
  have hpump := State.requested_pump hreq
  obtain ⟨c, o, f, hit⟩ := State.iteration_of_injects (State.injects_pump him hiff hei hpump)
  have hgo : s.pump.stopsHalted = false := by
    have hwake : s.pump.wakePossible = true := by
      rw [State.wakePossible_iff, State.pump_cpu]
      exact ⟨hiff, hpump, .inl him⟩
    simp [State.stopsHalted, hwake]
  obtain ⟨-, -, -, hword⟩ := Memory.push_bytes hwf s.cpu.sp s.cpu.pc
  refine ⟨_, exec_engRun m s, ?_⟩
  rw [State.run_of_iteration hgo hm (by rw [hit]; exact hm13), hit]
  exact ⟨rfl, rfl, rfl, rfl, rfl, hword⟩

end Sys2Proof.Machine

/-! PROOFS. ENG.STEP_ONE with the Z80 engine of the vectors (spec/44_interrupt_bridge.md R175, R177, spec/45_engine.md
R195, R200, spec/60_exceptions.md R236; logs 4, 29): the mode-2 acceptance, OUT (n),A and IN A,(n). -/

namespace Sys2Proof.Machine

/-! ## What the engine runs -/

theorem State.engineProgram_of_vectorZ80 {s : State} (h : s.params.engine = .vectorZ80) :
    s.engineProgram = vectorStep s.engineView := by
  simp only [State.engineProgram, h]

/-- With the line driven and interrupts enabled the engine accepts in mode 2 (R175). -/
theorem vectorStep_of_accepts {v : EngineView} (hline : v.intReq = true) (him : v.cpu.im = .im2)
    (hiff : v.cpu.iff1 = true) (hei : v.cpu.lastWasEi = false) : vectorStep v = acceptMode2 v := by
  simp [vectorStep, hline, him, hiff, hei]

/-- With interrupts masked a running engine executes the instruction at PC (R195). -/
theorem vectorStep_of_masked {v : EngineView} (hiff : v.cpu.iff1 = false) (hhalt : v.cpu.halted = false) :
    vectorStep v = plainStep v := by
  simp [vectorStep, hiff, hhalt]

/-- OUT (n),A (R280): one port write, 11 T-states. -/
theorem plainStep_out {v : EngineView} (h : v.mem.read8 v.cpu.pc = 0xD3) :
    plainStep v = .portWrite (Word.ofBytes v.cpu.regs.a (v.mem.read8 (v.cpu.pc + 1))) v.cpu.regs.a
      (.done (v.cpu.after 1 2) [] 11) := by
  simp [plainStep, h]

/-- The CPU after IN A,(n) of a byte: the byte in A, PC past the instruction. -/
def Cpu.afterIn (c : Cpu) (d : Byte) : Cpu := { c.after 1 2 with regs := { (c.after 1 2).regs with a := d } }

/-- IN A,(n) (R280): one port read, the byte in A, 11 T-states. -/
theorem plainStep_in {v : EngineView} (h : v.mem.read8 v.cpu.pc = 0xDB) :
    plainStep v = .portRead (Word.ofBytes v.cpu.regs.a (v.mem.read8 (v.cpu.pc + 1))) fun d =>
      .done (v.cpu.afterIn d) [] 11 := by
  simp [plainStep, h, Cpu.afterIn]

/-! ## The mode-2 acceptance -/

/-- The two stores of the acceptance are the push of PC (R236). -/
theorem Memory.writeAll_push (m : Memory) (sp v : Word) :
    m.writeAll [(sp - 2, v.low), (sp - 1, v.high)] = m.write16 (sp - 2) v := by
  rw [Memory.write16, Word.sub_two_add_one]
  rfl

/-- What the acceptance is, field by field (R236, log 29). -/
theorem acceptMode2_eq (v : EngineView) :
    ∃ cpu : Cpu, acceptMode2 v = .done cpu [(v.cpu.sp - 2, v.cpu.pc.low), (v.cpu.sp - 1, v.cpu.pc.high)] 19 ∧
      cpu.pc = (v.mem.write16 (v.cpu.sp - 2) v.cpu.pc).read16 (Word.ofBytes v.cpu.regs.i v.vector) ∧
      cpu.sp = v.cpu.sp - 2 ∧ cpu.im = v.cpu.im ∧ cpu.iff1 = false ∧ cpu.iff2 = false ∧ cpu.halted = false :=
  ⟨_, rfl, rfl, rfl, rfl, rfl, rfl, rfl⟩

/-- Settles O41: in mode 2 the bridge drives the line and leaves the step to the engine, which accepts. -/
theorem modeTwoStepVectorsThroughTheTable : Obligations.ModeTwoStepVectorsThroughTheTable := by
  intro s hengine hm him hiff hei hreq
  have hpreq := State.requested_pump hreq
  obtain ⟨c, f, hp⟩ := s.pump_eq
  obtain ⟨cpu, haccept, hpc, hsp, him', hiff1, hiff2, hhalt⟩ := acceptMode2_eq { s.engineView with intReq := true }
  have hengine' : s.pump.params.engine = .vectorZ80 := s.pump_params ▸ hengine
  have hview : ({ s.pump with irqLine := true } : State).engineView = { s.engineView with intReq := true } := by
    rw [hp]
    rfl
  have hprogram : ({ s.pump with irqLine := true } : State).engineProgram =
      .done cpu [(s.cpu.sp - 2, s.cpu.pc.low), (s.cpu.sp - 1, s.cpu.pc.high)] 19 := by
    rw [State.engineProgram_of_vectorZ80 (s := { s.pump with irqLine := true }) hengine', hview]
    exact (vectorStep_of_accepts rfl him hiff hei).trans haccept
  have hadv : s.pump.advance = (19, { s.pump with
      irqLine := true, engineTick := s.pump.engineTick + 1, cpu := cpu,
      mem := s.pump.mem.write16 (s.cpu.sp - 2) s.cpu.pc }) := by
    rw [State.advance_of_im2 (s.pump_cpu ▸ him), hpreq, ← Memory.writeAll_push]
    exact State.cpuStep_of_exec (by rw [hprogram]; rfl) (by decide)
  obtain ⟨c', o, hd⟩ := State.drainTx_eq s.pump.advance.2
  obtain ⟨-, -, hother, hword⟩ := Memory.push_bytes hm s.cpu.sp s.cpu.pc
  refine ⟨_, exec_engStepOne s, ?_⟩
  rw [hadv] at hd
  rw [State.iteration_of_advance hadv, hd, hp]
  exact ⟨rfl, rfl, hpc, hsp, him'.trans him, hiff1, hiff2, hhalt, (congrArg (Memory.read16 _) hsp).trans hword, hother,
    rfl, rfl⟩

/-! ## The port instructions -/

/-- An iteration with interrupts masked: the bridge sets the line to some level, and the engine executes the instruction
at PC on what the pump left. -/
theorem State.iteration_of_masked {s : State} (hengine : s.params.engine = .vectorZ80) (hiff : s.cpu.iff1 = false)
    (hhalt : s.cpu.halted = false) :
    ∃ line, ∀ (n : Nat) (v : State),
      (plainStep { s.engineView with intReq := line }).exec
        { s.pump with irqLine := line, engineTick := s.engineTick + 1 } = (n, v) → n ≠ 0 →
      s.iteration = (n, { v.drainTx with totalCycles := s.totalCycles + n }) := by
  obtain ⟨c, f, hp⟩ := s.pump_eq
  refine ⟨s.pump.irqLevel, fun n v hexec hn => State.iteration_of_advance ?_⟩
  rw [State.advance_of_iff1_false (s.pump_cpu ▸ hiff)]
  refine State.cpuStep_of_exec ?_ hn
  rw [← hexec, State.engineProgram_of_vectorZ80 (s.pump_params ▸ hengine),
    vectorStep_of_masked (s.pump_cpu ▸ hiff) (s.pump_cpu ▸ hhalt), hp]
  rfl

/-- OUT (n),A at the data port: the accumulator in the transmit register (R113, R132). -/
theorem exec_plainStep_out {v : EngineView} {u : State} (hop : v.mem.read8 v.cpu.pc = 0xD3)
    (hport : (u.chip.variant = .acia ∧ v.mem.read8 (v.cpu.pc + 1) = 0x81) ∨
      (u.chip.variant = .usart ∧ v.mem.read8 (v.cpu.pc + 1) = dataPort u.params.usartDataPort)) :
    (plainStep v).exec u = (11, { u with chip := u.chip.writeData v.cpu.regs.a, cpu := v.cpu.after 1 2 }) := by
  rw [plainStep_out hop, EngineRun.exec, EngineRun.exec, Chip.writePort_dataPort _ hport, Memory.writeAll]

/-- IN A,(n) at the data port: the receive register's byte in the accumulator (R111, R130). -/
theorem exec_plainStep_in {v : EngineView} {u : State} (hop : v.mem.read8 v.cpu.pc = 0xDB)
    (hport : (u.chip.variant = .acia ∧ v.mem.read8 (v.cpu.pc + 1) = 0x81) ∨
      (u.chip.variant = .usart ∧ v.mem.read8 (v.cpu.pc + 1) = dataPort u.params.usartDataPort)) :
    (plainStep v).exec u = (11, { u with chip := u.chip.readData.2, cpu := v.cpu.afterIn u.chip.rxData }) := by
  rw [plainStep_in hop, EngineRun.exec, EngineRun.exec, Chip.readPort_dataPort hport, Memory.writeAll,
    Chip.readData_fst]

/-- Settles O52: the instruction writes the data port, so the drain finds the byte in the transmit register. -/
theorem outToTheDataPortReachesTheOutput : Obligations.OutToTheDataPortReachesTheOutput := by
  intro s hengine hhalt hiff _ hop hport
  obtain ⟨line, hline⟩ := State.iteration_of_masked hengine hiff hhalt
  have hvariant := s.kept_pump.variant
  obtain ⟨c, f, hp⟩ := s.pump_eq
  rw [hp] at hline hvariant
  have hit := hline 11 _ (exec_plainStep_out hop (hvariant.symm ▸ hport)) (by decide)
  rw [State.drainTx_of_txFull rfl] at hit
  refine ⟨_, exec_engStepOne s, ?_⟩
  rw [hit]
  exact ⟨rfl, rfl, rfl, rfl, rfl, fun _ => rfl⟩

/-- Settles O53: the pump moves the byte into the receive register, the instruction reads the data port, and the drain
does not touch what they leave. -/
theorem queuedHostByteReachesTheAccumulator : Obligations.QueuedHostByteReachesTheAccumulator := by
  intro s b rest hengine hhalt hiff hrx hfifo hop hport
  obtain ⟨line, hline⟩ := State.iteration_of_masked hengine hiff hhalt
  rw [State.pump_of_cons hrx hfifo] at hline
  have hit := hline 11 _ (exec_plainStep_in hop hport) (by decide)
  refine ⟨_, exec_engStepOne s, ?_⟩
  rw [hit]
  rcases State.drainTx_cases _ with ⟨-, hd⟩ | ⟨-, hd⟩ <;> rw [hd] <;> exact ⟨rfl, rfl, rfl, rfl, rfl, rfl⟩

end Sys2Proof.Machine
